-- ==== Sys2Proof/Word.lean ====
section
/-! DEFINITION. The machine's word types (00_scope.md R7, R10, R13). -/

namespace Sys2Proof

/-- A word: 32 bits, unsigned, arithmetic modulo 2^32 (R10, R11). -/
abbrev Word := BitVec 32

/-- One byte of input, key or keystream. -/
abbrev Byte := BitVec 8

/-- A 64-bit counter value (R10). -/
abbrev U64 := BitVec 64

/-- A chaining value: exactly 8 words (R16). -/
abbrev Cv := Vector Word 8

/-- A block, or a compression state: exactly 16 words (R16). -/
abbrev Block := Vector Word 16

/-- The 64-byte block buffer (10_state.md R114). -/
abbrev Bytes64 := Vector Byte 64

end Sys2Proof
end

