-- ==== Sys2Proof/Config.lean ====
section
/-! DEFINITION. What the platform or an implementation fixes, and the free values of the spec. Every constant
here is opaque: nothing can evaluate it, so a claim about the machine holds whatever it is. -/

namespace Sys2Proof.Config

/-- CORE_BASE: the byte address of window offset 0x000 in the host's address space, an open parameter of the
platform (00_scope.md R8, 10_state.md R133, 93 U1; log 6). -/
opaque coreBase : Nat

/-! The free values: what the chunk registers, CV_STACK and CV_STACK_LEN hold after the n-th STACK_OVERFLOW, which
leaves them "with no defined value" (42_tree_hasher.md R612, 60_exceptions.md R803, 93 U3; log 8). The widths and
bounds are those 10_state.md gives the registers. -/

/-- CHUNK_CV after a stack overflow. -/
opaque freeChunkCv : Nat → Cv

/-- BLOCK_BUF after a stack overflow. -/
opaque freeBlockBuf : Nat → Bytes64

/-- BLOCK_LEN after a stack overflow. -/
opaque freeBlockLen : Nat → Fin 65

/-- BLOCKS_COMPRESSED after a stack overflow. -/
opaque freeBlocksCompressed : Nat → Fin 16

/-- CHUNK_COUNTER after a stack overflow. -/
opaque freeChunkCounter : Nat → U64

/-- The CV_STACK entries after a stack overflow. -/
opaque freeCvStack : Nat → Vector Cv 54

/-- CV_STACK_LEN after a stack overflow. -/
opaque freeCvStackLen : Nat → Fin 55

end Sys2Proof.Config
end

