-- ==== Sys2Proof/Machine/Constants.lean ====
section
/-! DEFINITION. The constants of the algorithm (40_compression_core.md R400 to R402, R407). The spec supplies their
values from general knowledge (93 GK1 to GK3) and makes them part of the algorithm. -/

namespace Sys2Proof.Machine

/-- IV[0..7] (R400). -/
def iv : Cv :=
  #v[0x6A09E667, 0xBB67AE85, 0x3C6EF372, 0xA54FF53A, 0x510E527F, 0x9B05688C, 0x1F83D9AB, 0x5BE0CD19]

/-- MSG_PERMUTATION[0..15] (R401). -/
def msgPermutation : Vector (Fin 16) 16 :=
  #v[2, 6, 3, 10, 7, 0, 4, 13, 1, 11, 12, 5, 9, 14, 15, 8]

/-- SCHED[0..6][0..15], the message schedule table (R407). The rounds use the iterated permutation; the table is
held to state that the two agree. -/
def scheduleTable : Vector (Vector (Fin 16) 16) 7 :=
  #v[#v[0, 1, 2, 3, 4, 5, 6, 7, 8, 9, 10, 11, 12, 13, 14, 15],
     #v[2, 6, 3, 10, 7, 0, 4, 13, 1, 11, 12, 5, 9, 14, 15, 8],
     #v[3, 4, 10, 12, 13, 2, 7, 14, 6, 5, 9, 0, 11, 15, 8, 1],
     #v[10, 7, 12, 9, 14, 3, 13, 15, 4, 0, 11, 2, 5, 8, 1, 6],
     #v[12, 13, 9, 11, 15, 10, 14, 8, 7, 2, 5, 3, 0, 1, 6, 4],
     #v[9, 14, 11, 5, 8, 12, 15, 1, 13, 3, 0, 10, 2, 6, 4, 7],
     #v[11, 15, 5, 0, 1, 9, 8, 6, 14, 10, 2, 12, 3, 4, 7, 13]]

/-! The domain flags (R402). -/

def chunkStart : Word := 0x01
def chunkEnd : Word := 0x02
def parentFlag : Word := 0x04
def rootFlag : Word := 0x08
def keyedHash : Word := 0x10
def deriveKeyContext : Word := 0x20
def deriveKeyMaterial : Word := 0x40

end Sys2Proof.Machine
end

