-- ==== Sys2Proof/Syntax.lean ====
section
/-! DEFINITION. The commands of 30_encoding.md R302, the registers of the window (20_memory.md R201), and what the
outside world can do to the core: host accesses and the platform's reset. -/

namespace Sys2Proof

/-- The eight commands, one constructor per row of spec/opcode_table.json (R302). LEN is a byte count (R303). -/
inductive Instr where
  | init
  | initKeyed (len : Nat)
  | initDerive
  | deriveCommit
  | update (len : Nat)
  | finalize
  | squeeze
  | compress
deriving DecidableEq, Repr

/-- Why a word written to CMD is no command: the three clauses of R304. -/
inductive DecodeError where
  /-- R304 (a): OP is 0x00 or in 0x09..0xFF. -/
  | reservedOpcode
  /-- R304 (b): RSV is not 0. -/
  | nonzeroReserved
  /-- R304 (c): LEN is not 0 and OP takes no length. -/
  | nonzeroLength
deriving DecidableEq, Repr

/-- The registers of the window, by the names of R201. `reserved n` is the n-th reserved word:
0x0F0..0x0FC for n = 0..3, then 0x180..0x1FC for n = 4..35. -/
inductive WindowReg where
  | cmd
  | status
  | chunkInfo
  | stackInfo
  | chunkCtrLo
  | chunkCtrHi
  | xofCtrLo
  | xofCtrHi
  | keyIn (i : Fin 8)
  | inData (i : Fin 16)
  | outData (i : Fin 16)
  | cmpCv (i : Fin 8)
  | cmpCtrLo
  | cmpCtrHi
  | cmpBlen
  | cmpFlags
  | cmpM (i : Fin 16)
  | cmpOut (i : Fin 16)
  | reserved (n : Fin 36)
deriving DecidableEq, Repr

/-- Where a host access goes: a byte offset from CORE_BASE (the spec's HostRead(off), HostWrite(off, v), R14), or a
byte address of the host's own address space (R200, R202). -/
inductive HostAddr where
  | window (offset : Nat)
  | absolute (address : Nat)
deriving DecidableEq, Repr

/-- What the outside world does to the core: one access of `bits` bits, or the platform's reset (R208, R900). -/
inductive HostEvent where
  | write (bits : Nat) (addr : HostAddr) (value : Word)
  | read (bits : Nat) (addr : HostAddr)
  | reset
deriving DecidableEq, Repr

end Sys2Proof
end

