-- ==== Sys2Proof/Machine/State.lean ====
section
/-! DEFINITION. The machine's state (10_state.md), its value after reset (R130, R900), and why a step can stop. -/

namespace Sys2Proof.Machine

/-- The codes of STATUS.ERR (60_exceptions.md R800). Codes 7..15 are never produced, so there is no constructor for
them (log 11). -/
inductive ErrCode where
  | ok
  | invalidKeyLength
  | illegalCommand
  | badLength
  | sequenceError
  | stackOverflow
  | fatalState
deriving DecidableEq, Repr

/-- Why the machine stops. The hardware itself never does: its errors are codes in STATUS.ERR (R805). -/
inductive Fault where
  /-- Raised by UPDATE alone: AddChunkCV would pop from an empty CV stack. "The loop never pops an empty stack"
  (42_tree_hasher.md R608), so only a state that no run reaches raises it (log 9). Safe. -/
  | cvStackUnderflow
deriving DecidableEq, Repr

/-- What the model gives no step. -/
inductive Refusal where
  /-- No meaning yet; the name of the instruction. Safe. -/
  | notModelled (mnemonic : String)
  /-- A host access that is not 32 bits wide (20_memory.md R206: "a model refuses it"; log 4). Safe. -/
  | accessWidth
  /-- A 32-bit host access at an offset that is not a multiple of 4 (R206; log 4). Safe. -/
  | accessMisaligned
  /-- A host access outside the register window, to which the spec gives no meaning (R202; log 5). Safe. -/
  | outsideWindow
deriving DecidableEq, Repr

/-- The chunk registers: the Chunk Accumulator's own state (R113 to R117, 41_chunk_accumulator.md R500). The bounds
of BLOCK_LEN (0..64) and BLOCKS_COMPRESSED (0..15) are in the types (log 10). -/
structure ChunkRegs where
  /-- CHUNK_CV[0..7] (R113). -/
  cv : Cv
  /-- BLOCK_BUF[0..63] (R114). -/
  buf : Bytes64
  /-- BLOCK_LEN, 0..64 (R115). -/
  blockLen : Fin 65
  /-- BLOCKS_COMPRESSED, 0..15 (R116). -/
  blocksCompressed : Fin 16
  /-- CHUNK_COUNTER (R117). -/
  counter : U64
deriving DecidableEq, Repr

/-- An Output: the five compression inputs, a value inside a command, not a register (43_output_finalizer.md
R700). -/
structure Output where
  cv : Cv
  block : Block
  counter : U64
  blockLen : Word
  flags : Word
deriving DecidableEq, Repr

/-- Everything the spec gives the machine ("a model holds exactly these registers", 10_state.md), and three fields
of the model's own: `hostQueue` (log 1), `hostReads` (log 2), `freeCtr` (log 8). -/
structure State where
  /-- MODE_FLAGS (R110). -/
  modeFlags : Word
  /-- KEY_WORDS[0..7] (R111). -/
  keyWords : Cv
  /-- CV_STACK[0..53][0..7] (R112). -/
  cvStack : Vector Cv 54
  /-- CV_STACK_LEN, 0..54 (R112; the bound is in the type, log 10). -/
  cvStackLen : Fin 55
  /-- The chunk registers (R113 to R117). -/
  chunk : ChunkRegs
  /-- OUT_CV[0..7] of the latched root Output (R120). -/
  outCv : Cv
  /-- OUT_BLOCK[0..15] (R120). -/
  outBlock : Block
  /-- OUT_BLEN (R120). -/
  outBlen : Word
  /-- OUT_FLAGS (R120). -/
  outFlags : Word
  /-- OUT_VALID (R121). -/
  outValid : Bool
  /-- XOF_CTR (R122). -/
  xofCtr : U64
  /-- STATUS.ERR (R123). -/
  err : ErrCode
  /-- STATUS.FATAL (R123). -/
  fatal : Bool
  /-- KEY_IN[0..7] (R129). -/
  keyIn : Cv
  /-- IN_DATA[0..15] (R129). -/
  inData : Block
  /-- OUT_DATA[0..15] (R129). -/
  outData : Block
  /-- CMP_CV[0..7] (R129). -/
  cmpCv : Cv
  /-- CMP_M[0..15] (R129). -/
  cmpM : Block
  /-- CMP_CTR_LO (R129). -/
  cmpCtrLo : Word
  /-- CMP_CTR_HI (R129). -/
  cmpCtrHi : Word
  /-- CMP_BLEN (R129). -/
  cmpBlen : Word
  /-- CMP_FLAGS (R129). -/
  cmpFlags : Word
  /-- CMP_OUT[0..15] (R129). -/
  cmpOut : Block
  /-- The host's accesses not yet performed, the next one first (R210; the model's own, log 1). -/
  hostQueue : List HostEvent
  /-- What the host's reads returned, the first one first (R307 RD; the model's own, log 2). -/
  hostReads : List Word
  /-- How many free values have been drawn (the model's own, log 8). -/
  freeCtr : Nat
deriving DecidableEq, Repr

/-- Why absorbing input stops short (R607, R608). -/
inductive TreeStop where
  /-- A push finds 54 entries (R612). -/
  | overflow
  /-- A pop finds none: no run does this (R608; log 9). -/
  | underflow
deriving DecidableEq, Repr

/-- What the next host event asks of the core: a command to run, or an access (or nothing) already performed. -/
inductive Fetch where
  | command (i : Instr) (s : State)
  | access (o : Host.Outcome State Fault Refusal)
deriving Repr

/-- Every field at the value of R130 and R129; the CV_STACK entries, which R130 leaves unspecified, at zero (log 7);
the model's own fields empty and 0 (log 1, 2, 8). -/
def State.reset : State where
  modeFlags := 0
  keyWords := iv
  cvStack := Vector.replicate 54 (Vector.replicate 8 0)
  cvStackLen := 0
  chunk := ⟨iv, Vector.replicate 64 0, 0, 0, 0⟩
  outCv := Vector.replicate 8 0
  outBlock := Vector.replicate 16 0
  outBlen := 0
  outFlags := 0
  outValid := false
  xofCtr := 0
  err := .ok
  fatal := false
  keyIn := Vector.replicate 8 0
  inData := Vector.replicate 16 0
  outData := Vector.replicate 16 0
  cmpCv := Vector.replicate 8 0
  cmpM := Vector.replicate 16 0
  cmpCtrLo := 0
  cmpCtrHi := 0
  cmpBlen := 0
  cmpFlags := 0
  cmpOut := Vector.replicate 16 0
  hostQueue := []
  hostReads := []
  freeCtr := 0

end Sys2Proof.Machine
end

