-- ==== Sys2Proof/Machine/Operands.lean ====
section
/-! DEFINITION. Byte order and the operands of the commands (00_scope.md R12, R13; 20_memory.md R203, R204;
30_encoding.md R303). Every operand but LEN is a fixed register. -/

namespace Sys2Proof.Machine

/-- `lo32(c) = c[31:0]` (R12). -/
def lo32 (c : U64) : Word := c.extractLsb' 0 32

/-- `hi32(c) = c[63:32]` (R12). -/
def hi32 (c : U64) : Word := c.extractLsb' 32 32

/-- One word from four bytes, the first byte least significant (R13). -/
def leWord (b0 b1 b2 b3 : Byte) : Word := b3 ++ b2 ++ b1 ++ b0

/-- The four bytes of a word, least significant first (R13). -/
def wordBytes (w : Word) : List Byte :=
  [w.extractLsb' 0 8, w.extractLsb' 8 8, w.extractLsb' 16 8, w.extractLsb' 24 8]

/-- `le_words(b)` for a byte string whose length is a multiple of 4 (R13). -/
def leWords : List Byte → List Word
  | b0 :: b1 :: b2 :: b3 :: rest => leWord b0 b1 b2 b3 :: leWords rest
  | _ => []

/-- `le_bytes(w)` (R13). -/
def leBytes (ws : List Word) : List Byte := ws.flatMap wordBytes

/-- `le_words(BLOCK_BUF)`: the block the compression reads (R205, 41 R503, R504). -/
def bufferWords (buf : Bytes64) : Block :=
  Vector.ofFn fun i : Fin 16 => leWord buf[4 * i.val] buf[4 * i.val + 1] buf[4 * i.val + 2] buf[4 * i.val + 3]

/-- `le_bytes(IN_DATA[0..15])[0..len−1]`: the bytes UPDATE absorbs (42 R606, 20 R204). -/
def inputBytes (len : Nat) (s : State) : List Byte := (leBytes s.inData.toList).take len

/-- The counter operand of COMPRESS: `CMP_CTR_HI << 32 | CMP_CTR_LO` (40 R412). -/
def compressCounter (s : State) : U64 := s.cmpCtrHi ++ s.cmpCtrLo

end Sys2Proof.Machine
end

