-- ==== Sys2Proof/Machine/Compression.lean ====
section
/-! DEFINITION. The compression core: G, the round, the message permutation, compress (40_compression_core.md R403
to R413). All of it is pure; every `+` is modulo 2^32 (R414). -/

namespace Sys2Proof.Machine

/-- `rotr(x, n)` for 0 < n < 32 (00_scope.md R11). -/
def rotr (x : Word) (n : Nat) : Word := (x >>> n) ||| (x <<< (32 - n))

/-- `G(s, a, b, c, d, mx, my)` (R404), with the rotations of R403. -/
def mixG (s : Block) (a b c d : Fin 16) (mx my : Word) : Block :=
  let s := s.set a (s[a] + s[b] + mx)
  let s := s.set d (rotr (s[d] ^^^ s[a]) 16)
  let s := s.set c (s[c] + s[d])
  let s := s.set b (rotr (s[b] ^^^ s[c]) 12)
  let s := s.set a (s[a] + s[b] + my)
  let s := s.set d (rotr (s[d] ^^^ s[a]) 8)
  let s := s.set c (s[c] + s[d])
  s.set b (rotr (s[b] ^^^ s[c]) 7)

/-- `round(s, m)`: the four columns, then the four diagonals (R405). -/
def mixRound (s m : Block) : Block :=
  let s := mixG s 0 4 8 12 m[0] m[1]
  let s := mixG s 1 5 9 13 m[2] m[3]
  let s := mixG s 2 6 10 14 m[4] m[5]
  let s := mixG s 3 7 11 15 m[6] m[7]
  let s := mixG s 0 5 10 15 m[8] m[9]
  let s := mixG s 1 6 11 12 m[10] m[11]
  let s := mixG s 2 7 8 13 m[12] m[13]
  mixG s 3 4 9 14 m[14] m[15]

/-- `permute(m)[i] = m[MSG_PERMUTATION[i]]` (R406). -/
def permute (m : Block) : Block := Vector.ofFn fun i : Fin 16 => m[msgPermutation[i]]

/-- `n` rounds, the message permuted between consecutive rounds and not after the last (R408). -/
def mixRounds : Nat → Block → Block → Block
  | 0, s, _ => s
  | 1, s, m => mixRound s m
  | n + 2, s, m => mixRounds (n + 1) (mixRound s m) (permute m)

/-- The initial state (R409). -/
def compressInit (cv : Cv) (counter : U64) (blockLen flags : Word) : Block :=
  #v[cv[0], cv[1], cv[2], cv[3], cv[4], cv[5], cv[6], cv[7], iv[0], iv[1], iv[2], iv[3],
     lo32 counter, hi32 counter, blockLen, flags]

/-- The feed-forward: `state[i] ^= state[i+8]; state[i+8] ^= cv[i]` for i in 0..7 (R410). -/
def feedForward (cv : Cv) (s : Block) : Block :=
  Vector.ofFn fun i : Fin 16 => if h : i.val < 8 then s[i] ^^^ s[i.val + 8] else s[i] ^^^ cv[i.val - 8]

/-- `compress(cv, block, counter, blockLen, flags)` (R411): total, with no range check. Irreducible, so that no proof
unfolds seven rounds by accident. -/
@[irreducible]
def compressFn (cv : Cv) (block : Block) (counter : U64) (blockLen flags : Word) : Block :=
  feedForward cv (mixRounds 7 (compressInit cv counter blockLen flags) block)

/-- `first8Words(s) = s[0..7]` (R413). -/
def first8Words (s : Block) : Cv := Vector.ofFn fun i : Fin 8 => s[i.val]

end Sys2Proof.Machine
end

