-- ==== Sys2Proof/Machine/Flags.lean ====
section
/-! DEFINITION. The domain flags of each kind of node (R402, R502, R504, R609, R702) and the status registers the
host reads, assembled from the state (10_state.md R118, R123 to R127). The core has no condition codes (R131). -/

namespace Sys2Proof.Machine

/-- `start_flag()`: CHUNK_START while no block of the chunk has been compressed (41 R502). -/
def startFlag (c : ChunkRegs) : Word :=
  if c.blocksCompressed.val = 0 then chunkStart else 0

/-- The flags of a compressed full block of a chunk: MODE_FLAGS | start_flag() (41 R503). -/
def blockFlags (mode : Word) (c : ChunkRegs) : Word := mode ||| startFlag c

/-- The flags of a chunk's Output: MODE_FLAGS | start_flag() | CHUNK_END (41 R504). -/
def chunkOutputFlags (mode : Word) (c : ChunkRegs) : Word := mode ||| startFlag c ||| chunkEnd

/-- The flags of a parent node: PARENT | MODE_FLAGS (42 R609). -/
def parentNodeFlags (mode : Word) : Word := parentFlag ||| mode

/-- The flags of a root keystream block: the Output's flags with ROOT (43 R702). -/
def rootBlockFlags (flags : Word) : Word := flags ||| rootFlag

/-- The code of STATUS.ERR (60 R800). -/
def ErrCode.code : ErrCode → BitVec 4
  | .ok => 0
  | .invalidKeyLength => 1
  | .illegalCommand => 2
  | .badLength => 3
  | .sequenceError => 4
  | .stackOverflow => 5
  | .fatalState => 6

/-- `chunk_len = 64 × BLOCKS_COMPRESSED + BLOCK_LEN` (R118). -/
def chunkLen (c : ChunkRegs) : Nat := 64 * c.blocksCompressed.val + c.blockLen.val

/-- STATUS (R123): ERR in 3:0, OUT_VALID in 4, FATAL in 5, MODE in 15:8, the rest 0. -/
def statusWord (s : State) : Word :=
  0#16 ++ s.modeFlags.extractLsb' 0 8 ++ 0#2 ++ BitVec.ofBool s.fatal ++ BitVec.ofBool s.outValid ++ s.err.code

/-- CHUNK_INFO (R124): BLOCK_LEN in 6:0, BLOCKS_COMPRESSED in 11:8, CHUNK_LEN in 26:16, the rest 0. -/
def chunkInfoWord (c : ChunkRegs) : Word :=
  0#5 ++ BitVec.ofNat 11 (chunkLen c) ++ 0#4 ++ BitVec.ofNat 4 c.blocksCompressed.val ++ 0#1 ++
    BitVec.ofNat 7 c.blockLen.val

/-- STACK_INFO (R125): CV_STACK_LEN in 5:0, the rest 0. -/
def stackInfoWord (s : State) : Word := BitVec.ofNat 32 s.cvStackLen.val

end Sys2Proof.Machine
end

