-- ==== Sys2Proof/Machine/ChunkAccumulator.lean ====
section
/-! DEFINITION. The chunk accumulator (41_chunk_accumulator.md): ChunkInit, ChunkUpdate, ChunkOutput. No command
reaches it directly; MODE_FLAGS comes as an argument, since every chunk has the instance's flags (R501). -/

namespace Sys2Proof.Machine

/-- `ChunkInit(key, counter)`: a new, empty chunk (R501). -/
def chunkInit (key : Cv) (counter : U64) : ChunkRegs where
  cv := key
  buf := Vector.replicate 64 0
  blockLen := 0
  blocksCompressed := 0
  counter := counter

/-- Compress the full buffer and empty it (the body of the `if` of R503). -/
def compressBlock (mode : Word) (c : ChunkRegs) : ChunkRegs where
  cv := first8Words (compressFn c.cv (bufferWords c.buf) c.counter 64 (blockFlags mode c))
  buf := Vector.replicate 64 0
  blockLen := 0
  blocksCompressed := Fin.ofNat 16 (c.blocksCompressed.val + 1)
  counter := c.counter

/-- `BLOCK_BUF[i ..] <- bytes` (R503). -/
def writeBytes (buf : Bytes64) : Nat → List Byte → Bytes64
  | _, [] => buf
  | i, b :: bs => writeBytes (buf.setIfInBounds i b) (i + 1) bs

/-- Append at most `64 − BLOCK_LEN` bytes to the buffer (R503). -/
def fillBlock (c : ChunkRegs) (bytes : List Byte) : ChunkRegs :=
  { c with buf := writeBytes c.buf c.blockLen.val bytes,
           blockLen := Fin.ofNat 65 (c.blockLen.val + bytes.length) }

/-- The loop of `ChunkUpdate(in)` (R503), at most `fuel` times round. Each time round takes a byte or more, so
`fuel = n` is enough (log 13). -/
def chunkUpdateLoop (mode : Word) : Nat → List Byte → ChunkRegs → ChunkRegs
  | 0, _, c => c
  | fuel + 1, data, c =>
    if data.isEmpty then c
    else
      let c := if c.blockLen.val = 64 then compressBlock mode c else c
      let take := min (64 - c.blockLen.val) data.length
      chunkUpdateLoop mode fuel (data.drop take) (fillBlock c (data.take take))

/-- `ChunkUpdate(in[0..n−1])` (R503). -/
def chunkUpdate (mode : Word) (data : List Byte) (c : ChunkRegs) : ChunkRegs :=
  chunkUpdateLoop mode data.length data c

/-- `ChunkOutput()` (R504). -/
def chunkOutput (mode : Word) (c : ChunkRegs) : Output where
  cv := c.cv
  block := bufferWords c.buf
  counter := c.counter
  blockLen := BitVec.ofNat 32 c.blockLen.val
  flags := chunkOutputFlags mode c

end Sys2Proof.Machine
end

