-- ==== Sys2Proof/Machine/OutputNode.lean ====
section
/-! DEFINITION. Outputs and what is derived from them: chaining values, parent nodes, root blocks, the root Output
(42_tree_hasher.md R609, R610; 43_output_finalizer.md R700 to R704). -/

namespace Sys2Proof.Machine

/-- `ChainingValue(o)` (43 R701). -/
def chainingValue (o : Output) : Cv := first8Words (compressFn o.cv o.block o.counter o.blockLen o.flags)

/-- `RootBlock(o, k)`: keystream block k; the Output's own counter is not used (43 R702). -/
def rootBlock (o : Output) (k : U64) : Block := compressFn o.cv o.block k o.blockLen (rootBlockFlags o.flags)

/-- `ParentOutput(left, right)`, with the instance's KEY_WORDS and MODE_FLAGS (42 R609). -/
def parentOutput (key : Cv) (mode : Word) (left right : Cv) : Output where
  cv := key
  block := left ++ right
  counter := 0
  blockLen := 64
  flags := parentNodeFlags mode

/-- `ParentCV(left, right)` (42 R610). -/
def parentCv (key : Cv) (mode : Word) (left right : Cv) : Cv := chainingValue (parentOutput key mode left right)

/-- The walk of `RootOutput()` from the top of the stack to the bottom: `j` entries are left (43 R704). -/
def ascend (key : Cv) (mode : Word) (stack : Vector Cv 54) : (j : Nat) → j ≤ 54 → Output → Output
  | 0, _, o => o
  | j + 1, h, o =>
    ascend key mode stack j (Nat.le_of_succ_le h) (parentOutput key mode stack[j] (chainingValue o))

/-- `RootOutput()` of the current state (43 R704). -/
def rootOutput (s : State) : Output :=
  ascend s.keyWords s.modeFlags s.cvStack s.cvStackLen.val (Nat.le_of_lt_succ s.cvStackLen.isLt)
    (chunkOutput s.modeFlags s.chunk)

/-- `le_bytes(RootBlock(o, 0)) ++ le_bytes(RootBlock(o, 1)) ++ ...`, the first `n` blocks (43 R703). -/
def keystream (o : Output) (n : Nat) : List Byte :=
  (List.range n).flatMap fun k => leBytes (rootBlock o (BitVec.ofNat 64 k)).toList

/-- `RootOutputBytes(o, size)` (43 R703): `size` bytes need `ceil(size/64)` blocks (R710). -/
def rootOutputBytes (o : Output) (size : Nat) : List Byte := (keystream o ((size + 63) / 64)).take size

end Sys2Proof.Machine
end

