-- ==== Sys2Proof/Machine/Ops.lean ====
section
/-! DEFINITION. The shared operations: the end of a command (success, error report, stack overflow), construction of
a hasher, and reading and writing the registers of the window (20_memory.md R201 to R208). -/

namespace Sys2Proof.Machine

/-- What a command answers. -/
abbrev Answer := Host.Outcome State Fault Refusal

/-- `STATUS.ERR <- e`. -/
def setErr (e : ErrCode) (s : State) : State := { s with err := e }

/-- A command that succeeds writes STATUS.ERR = OK (60 R801). -/
def succeed (s : State) : Answer := .next (setErr .ok s)

/-- `raise E`: the command ends, STATUS.ERR <- E, and nothing else changes (00 R14, 60 R801). This is the "trap" of
the hardware (60 R805): there is no vector, no saved state, and nothing to return from (R806). -/
def reportError (e : ErrCode) (s : State) : Answer := .next (setErr e s)

/-- A CMD word that is no command (30 R304). -/
def illegalCommand (s : State) : Answer := reportError .illegalCommand s

/-- STACK_OVERFLOW: FATAL is set, and the chunk registers and the CV stack are left with no defined value, which the
free values of Config stand for; everything else, KEY_WORDS and MODE_FLAGS among it, is unchanged (42 R612, 60 R803;
log 8). -/
def stackOverflow (s : State) : State :=
  { s with
    chunk := ⟨Config.freeChunkCv s.freeCtr, Config.freeBlockBuf s.freeCtr, Config.freeBlockLen s.freeCtr,
      Config.freeBlocksCompressed s.freeCtr, Config.freeChunkCounter s.freeCtr⟩
    cvStack := Config.freeCvStack s.freeCtr
    cvStackLen := Config.freeCvStackLen s.freeCtr
    fatal := true
    err := .stackOverflow
    freeCtr := s.freeCtr + 1 }

/-- `HasherInit(key, flags)` (42 R601). -/
def hasherInit (key : Cv) (flags : Word) (s : State) : State :=
  { s with
    keyWords := key
    modeFlags := flags
    chunk := chunkInit key 0
    cvStackLen := 0
    outValid := false
    fatal := false }

/-- The platform's reset (70 R900): every register of the spec; the model's own fields stay (log 15). -/
def platformReset (s : State) : State :=
  { State.reset with hostQueue := s.hostQueue, hostReads := s.hostReads, freeCtr := s.freeCtr }

/-- Byte offset of each register from CORE_BASE (20 R201). -/
def regOffset : WindowReg → Nat
  | .cmd => 0x000
  | .status => 0x004
  | .chunkInfo => 0x008
  | .stackInfo => 0x00C
  | .chunkCtrLo => 0x010
  | .chunkCtrHi => 0x014
  | .xofCtrLo => 0x018
  | .xofCtrHi => 0x01C
  | .keyIn i => 0x020 + 4 * i.val
  | .inData i => 0x040 + 4 * i.val
  | .outData i => 0x080 + 4 * i.val
  | .cmpCv i => 0x0C0 + 4 * i.val
  | .cmpCtrLo => 0x0E0
  | .cmpCtrHi => 0x0E4
  | .cmpBlen => 0x0E8
  | .cmpFlags => 0x0EC
  | .cmpM i => 0x100 + 4 * i.val
  | .cmpOut i => 0x140 + 4 * i.val
  | .reserved n => if n.val < 4 then 0x0F0 + 4 * n.val else 0x180 + 4 * (n.val - 4)

/-- The register at word `k` of the window, that is at offset `4 k` (20 R201). -/
def regOfWord (k : Fin 128) : WindowReg :=
  if k.val = 0 then .cmd
  else if k.val = 1 then .status
  else if k.val = 2 then .chunkInfo
  else if k.val = 3 then .stackInfo
  else if k.val = 4 then .chunkCtrLo
  else if k.val = 5 then .chunkCtrHi
  else if k.val = 6 then .xofCtrLo
  else if k.val = 7 then .xofCtrHi
  else if k.val < 16 then .keyIn (Fin.ofNat 8 (k.val - 8))
  else if k.val < 32 then .inData (Fin.ofNat 16 (k.val - 16))
  else if k.val < 48 then .outData (Fin.ofNat 16 (k.val - 32))
  else if k.val < 56 then .cmpCv (Fin.ofNat 8 (k.val - 48))
  else if k.val = 56 then .cmpCtrLo
  else if k.val = 57 then .cmpCtrHi
  else if k.val = 58 then .cmpBlen
  else if k.val = 59 then .cmpFlags
  else if k.val < 64 then .reserved (Fin.ofNat 36 (k.val - 60))
  else if k.val < 80 then .cmpM (Fin.ofNat 16 (k.val - 64))
  else if k.val < 96 then .cmpOut (Fin.ofNat 16 (k.val - 80))
  else .reserved (Fin.ofNat 36 (k.val - 92))

/-- What a host read of a register returns (20 R201, R207): write-only and reserved registers read 0. -/
def readReg (r : WindowReg) (s : State) : Word :=
  match r with
  | .cmd => 0
  | .status => statusWord s
  | .chunkInfo => chunkInfoWord s.chunk
  | .stackInfo => stackInfoWord s
  | .chunkCtrLo => lo32 s.chunk.counter
  | .chunkCtrHi => hi32 s.chunk.counter
  | .xofCtrLo => lo32 s.xofCtr
  | .xofCtrHi => hi32 s.xofCtr
  | .keyIn _ => 0
  | .inData i => s.inData[i]
  | .outData i => s.outData[i]
  | .cmpCv i => s.cmpCv[i]
  | .cmpCtrLo => s.cmpCtrLo
  | .cmpCtrHi => s.cmpCtrHi
  | .cmpBlen => s.cmpBlen
  | .cmpFlags => s.cmpFlags
  | .cmpM i => s.cmpM[i]
  | .cmpOut i => s.cmpOut[i]
  | .reserved _ => 0

/-- What a host write stores (20 R201, R207, R208): read-only and reserved registers ignore it. A write to CMD stores
nothing (10 R128); the command it executes is run by the step. -/
def writeReg (r : WindowReg) (v : Word) (s : State) : State :=
  match r with
  | .cmd => s
  | .status => s
  | .chunkInfo => s
  | .stackInfo => s
  | .chunkCtrLo => s
  | .chunkCtrHi => s
  | .xofCtrLo => s
  | .xofCtrHi => s
  | .keyIn i => { s with keyIn := s.keyIn.set i v }
  | .inData i => { s with inData := s.inData.set i v }
  | .outData _ => s
  | .cmpCv i => { s with cmpCv := s.cmpCv.set i v }
  | .cmpCtrLo => { s with cmpCtrLo := v }
  | .cmpCtrHi => { s with cmpCtrHi := v }
  | .cmpBlen => { s with cmpBlen := v }
  | .cmpFlags => { s with cmpFlags := v }
  | .cmpM i => { s with cmpM := s.cmpM.set i v }
  | .cmpOut _ => s
  | .reserved _ => s

end Sys2Proof.Machine
end

