-- ==== Sys2Proof/Machine/CompressionPort.lean ====
section
/-! DEFINITION. COMPRESS: the host's direct access to the compression function (40_compression_core.md R412). -/

namespace Sys2Proof.Machine

/-- COMPRESS (R412): legal while FATAL is set (60 R803); any CMP_BLEN and CMP_FLAGS are used as given. -/
def execCompress (s : State) : Answer :=
  succeed { s with cmpOut := compressFn s.cmpCv s.cmpM (compressCounter s) s.cmpBlen s.cmpFlags }

end Sys2Proof.Machine
end

