-- ==== Sys2Proof/Machine/OutputFinalizer.lean ====
section
/-! DEFINITION. The output finalizer's commands (43_output_finalizer.md): FINALIZE, SQUEEZE. -/

namespace Sys2Proof.Machine

/-- `(OUT_CV, OUT_BLOCK, OUT_BLEN, OUT_FLAGS) <- o` (R705). -/
def latchOutput (o : Output) (s : State) : State :=
  { s with outCv := o.cv, outBlock := o.block, outBlen := o.blockLen, outFlags := o.flags }

/-- `(OUT_CV, OUT_BLOCK, _, OUT_BLEN, OUT_FLAGS)` (R706). The counter is not latched and root blocks do not read it
(R702, 10 R120). -/
def latchedOutput (s : State) : Output := ⟨s.outCv, s.outBlock, 0, s.outBlen, s.outFlags⟩

/-- FINALIZE (R705), after the FATAL check (60 R802). -/
def execFinalize (s : State) : Answer :=
  if s.fatal then reportError .fatalState s
  else
    let o := rootOutput s
    succeed { latchOutput o s with outData := rootBlock o 0, xofCtr := 1, outValid := true }

/-- SQUEEZE (R706), after the FATAL check (60 R802). XOF_CTR wraps modulo 2^64 (R709). -/
def execSqueeze (s : State) : Answer :=
  if s.fatal then reportError .fatalState s
  else if s.outValid then
    succeed { s with outData := rootBlock (latchedOutput s) s.xofCtr, xofCtr := s.xofCtr + 1 }
  else reportError .sequenceError s

end Sys2Proof.Machine
end

