-- ==== Sys2Proof/Machine/TreeHasher.lean ====
section
/-! DEFINITION. The tree hasher (42_tree_hasher.md): INIT, INIT_KEYED, INIT_DERIVE, DERIVE_COMMIT, UPDATE, and the
merge of completed chunks into the CV stack. -/

namespace Sys2Proof.Machine

/-- INIT (R602). -/
def execInit (s : State) : Answer := succeed (hasherInit iv 0x00 s)

/-- INIT_KEYED (R603): the operand check comes first, and FATAL does not matter (60 R802, R803). -/
def execInitKeyed (len : Nat) (s : State) : Answer :=
  if len ≠ 32 then reportError .invalidKeyLength s
  else succeed (hasherInit s.keyIn keyedHash s)

/-- INIT_DERIVE (R604). -/
def execInitDerive (s : State) : Answer := succeed (hasherInit iv deriveKeyContext s)

/-- DERIVE_COMMIT (R605), after the FATAL check (60 R802). -/
def execDeriveCommit (s : State) : Answer :=
  if s.fatal then reportError .fatalState s
  else if s.modeFlags ≠ deriveKeyContext then reportError .sequenceError s
  else succeed (hasherInit (first8Words (rootBlock (rootOutput s) 0)) deriveKeyMaterial s)

/-- The loop of `AddChunkCV` (R608): while N is even, pop the top entry as the left child. `len` is CV_STACK_LEN.
None: a pop from an empty stack, which no run does (log 9). -/
def mergeSubtrees (key : Cv) (mode : Word) (stack : Vector Cv 54) :
    (len : Nat) → len ≤ 54 → Cv → U64 → Option (Fin 55 × Cv)
  | 0, _, cv, n => if n.getLsbD 0 then some (0, cv) else none
  | len + 1, h, cv, n =>
    if n.getLsbD 0 then some (⟨len + 1, Nat.lt_succ_of_le h⟩, cv)
    else mergeSubtrees key mode stack len (Nat.le_of_succ_le h) (parentCv key mode stack[len] cv) (n >>> 1)

/-- `AddChunkCV(new_cv, N)` (R608, R612): merge, then push. A popped entry stays where it was, above the length. -/
def addChunkCv (newCv : Cv) (n : U64) (s : State) : Except TreeStop State :=
  match mergeSubtrees s.keyWords s.modeFlags s.cvStack s.cvStackLen.val (Nat.le_of_lt_succ s.cvStackLen.isLt)
      newCv n with
  | none => .error .underflow
  | some (len, cv) =>
    if h : len.val = 54 then .error .overflow
    else
      have hl : len.val < 54 := by have := len.isLt; omega
      .ok { s with cvStack := s.cvStack.set len.val cv, cvStackLen := ⟨len.val + 1, Nat.succ_lt_succ hl⟩ }

/-- Finalize the full chunk, merge it, start the next one (the body of the `if` of R607). -/
def completeChunk (s : State) : Except TreeStop State :=
  let total := s.chunk.counter + 1
  match addChunkCv (chainingValue (chunkOutput s.modeFlags s.chunk)) total s with
  | .error e => .error e
  | .ok t => .ok { t with chunk := chunkInit s.keyWords total }

/-- One time round `TreeUpdate`, its first half: finalize the chunk if it holds 1024 bytes (R607). -/
def makeRoom (s : State) : Except TreeStop State :=
  if chunkLen s.chunk = 1024 then completeChunk s else .ok s

/-- The loop of `TreeUpdate(in)` (R607), at most `fuel` times round. Each time round takes a byte or more, so
`fuel = n` is enough (log 13). -/
def treeUpdateLoop : Nat → List Byte → State → Except TreeStop State
  | 0, _, s => .ok s
  | fuel + 1, data, s =>
    if data.isEmpty then .ok s
    else
      match makeRoom s with
      | .error e => .error e
      | .ok s =>
        let take := min (1024 - chunkLen s.chunk) data.length
        treeUpdateLoop fuel (data.drop take)
          { s with chunk := chunkUpdate s.modeFlags (data.take take) s.chunk }

/-- `TreeUpdate(in[0..n−1])` (R607). -/
def treeUpdate (data : List Byte) (s : State) : Except TreeStop State := treeUpdateLoop data.length data s

/-- UPDATE (R606), after the FATAL check (60 R802). -/
def execUpdate (len : Nat) (s : State) : Answer :=
  if s.fatal then reportError .fatalState s
  else if 64 < len then reportError .badLength s
  else
    match treeUpdate (inputBytes len s) s with
    | .ok t => succeed t
    | .error .overflow => .next (stackOverflow s)
    | .error .underflow => .fault .cvStackUnderflow

end Sys2Proof.Machine
end

