-- ==== Sys2Proof/Machine/Dispatch.lean ====
section
/-! DEFINITION. One arm per command. -/

namespace Sys2Proof.Machine

def exec (i : Instr) (s : State) : Host.Outcome State Fault Refusal :=
  match i with
  | .init => Sys2Proof.Machine.execInit s
  | .initKeyed len => Sys2Proof.Machine.execInitKeyed len s
  | .initDerive => Sys2Proof.Machine.execInitDerive s
  | .deriveCommit => Sys2Proof.Machine.execDeriveCommit s
  | .update len => Sys2Proof.Machine.execUpdate len s
  | .finalize => Sys2Proof.Machine.execFinalize s
  | .squeeze => Sys2Proof.Machine.execSqueeze s
  | .compress => Sys2Proof.Machine.execCompress s

end Sys2Proof.Machine
end

