-- ==== Sys2Proof/WellFormed.lean ====
section
/-! DEFINITION. Which terms of the syntax the hardware can hold. -/

namespace Sys2Proof

/-- LEN is an unsigned 8-bit field (30_encoding.md R300, R303); every other command has no operand. UPDATE 65 and
INIT_KEYED 31 are well formed: they are legal words that report an error. -/
def Instr.wf : Instr → Bool
  | .init => true
  | .initKeyed len => decide (len < 256)
  | .initDerive => true
  | .deriveCommit => true
  | .update len => decide (len < 256)
  | .finalize => true
  | .squeeze => true
  | .compress => true

end Sys2Proof
end

