-- ==== Sys2Proof/Decode.lean ====
section
/-! DEFINITION. The command word: the opcode table, the decoder, the encoder (30_encoding.md R300 to R307). -/

namespace Sys2Proof

/-- `v[hi:lo]` of a command word: OP = w[7:0] (R300). -/
def opField (w : Word) : BitVec 8 := w.extractLsb' 0 8

/-- LEN = w[15:8] (R300). -/
def lenField (w : Word) : BitVec 8 := w.extractLsb' 8 8

/-- RSV = w[31:16] (R300). -/
def rsvField (w : Word) : BitVec 16 := w.extractLsb' 16 16

/-- A command whose LEN must be 0 (R304 c). -/
def withoutLength (w : Word) (i : Instr) : Except DecodeError Instr :=
  if lenField w = 0 then .ok i else .error .nonzeroLength

/-- R301, R302, R304: total on every 32-bit word, by the opcode map. LEN is zero-extended (R303). -/
def decode (w : Word) : Except DecodeError Instr :=
  if rsvField w = 0 then
    match (opField w).toNat with
    | 0x01 => withoutLength w .init
    | 0x02 => .ok (.initKeyed (lenField w).toNat)
    | 0x03 => withoutLength w .initDerive
    | 0x04 => withoutLength w .deriveCommit
    | 0x05 => .ok (.update (lenField w).toNat)
    | 0x06 => withoutLength w .finalize
    | 0x07 => withoutLength w .squeeze
    | 0x08 => withoutLength w .compress
    | _ => .error .reservedOpcode
  else .error .nonzeroReserved

/-- OP of each command (R302). -/
def opcode : Instr → Nat
  | .init => 0x01
  | .initKeyed _ => 0x02
  | .initDerive => 0x03
  | .deriveCommit => 0x04
  | .update _ => 0x05
  | .finalize => 0x06
  | .squeeze => 0x07
  | .compress => 0x08

/-- The LEN operand of each command, 0 where it takes none (R302). -/
def lenOperand : Instr → Nat
  | .init => 0
  | .initKeyed len => len
  | .initDerive => 0
  | .deriveCommit => 0
  | .update len => len
  | .finalize => 0
  | .squeeze => 0
  | .compress => 0

/-- `encode(M, len) = OP(M) | len << 8` (R307). -/
def encode (i : Instr) : Word :=
  BitVec.ofNat 32 (opcode i) ||| (BitVec.ofNat 32 (lenOperand i) <<< 8)

/-- The match word of the command's row in spec/opcode_table.json (R302). -/
def tableMatch (i : Instr) : Word :=
  match i with
  | .init => 0x00000001
  | .initKeyed _ => 0x00000002
  | .initDerive => 0x00000003
  | .deriveCommit => 0x00000004
  | .update _ => 0x00000005
  | .finalize => 0x00000006
  | .squeeze => 0x00000007
  | .compress => 0x00000008

/-- The mask of the command's row: INIT_KEYED and UPDATE leave LEN free (R302). -/
def tableMask (i : Instr) : Word :=
  match i with
  | .init => 0xFFFFFFFF
  | .initKeyed _ => 0xFFFF00FF
  | .initDerive => 0xFFFFFFFF
  | .deriveCommit => 0xFFFFFFFF
  | .update _ => 0xFFFF00FF
  | .finalize => 0xFFFFFFFF
  | .squeeze => 0xFFFFFFFF
  | .compress => 0xFFFFFFFF

/-- The instruction the decoder reads from a table word of `nbits` bits. A command is one 32-bit word, delivered by
one 32-bit write (R306, 20_memory.md R206), so the word goes to the decoder as it is; bits above `nbits` are 0. -/
def decodeTableWord (nbits w : Nat) : Option Instr :=
  (decode (BitVec.ofNat 32 (w % 2 ^ nbits))).toOption

end Sys2Proof
end

