-- ==== Sys2Proof/Machine/HostPort.lean ====
section
/-! DEFINITION. The host's side of the window: one event at a time, in program order (20_memory.md R200 to R210).
`fetch` takes the next event; a legal word written to CMD is the core's next command (10 R101, 30 R301). -/

namespace Sys2Proof.Machine

/-- The window offset an address stands for: the window is the 0x200 bytes from CORE_BASE (00 R8, 20 R200). An
absolute address outside them is no address of the core. -/
def windowOffset : HostAddr → Option Nat
  | .window offset => if offset < 0x200 then some offset else none
  | .absolute address =>
    if Config.coreBase ≤ address ∧ address < Config.coreBase + 0x200 then some (address - Config.coreBase) else none

/-- The register an access reaches, or why the access has no meaning (20 R206; log 4, 5). -/
def locate (bits : Nat) (addr : HostAddr) : Except Refusal WindowReg :=
  match windowOffset addr with
  | none => .error .outsideWindow
  | some offset =>
    if bits ≠ 32 then .error .accessWidth
    else if offset % 4 ≠ 0 then .error .accessMisaligned
    else .ok (regOfWord (Fin.ofNat 128 (offset / 4)))

/-- A write of `w` to CMD: the command it encodes, or ILLEGAL_COMMAND (30 R301, R304). -/
def writeCmd (w : Word) (s : State) : Fetch :=
  match decode w with
  | .ok i => .command i s
  | .error _ => .access (illegalCommand s)

/-- A host write to a register: CMD executes a command, any other register stores or ignores (20 R207, R208). -/
def hostWrite (r : WindowReg) (v : Word) (s : State) : Fetch :=
  match r with
  | .cmd => writeCmd v s
  | r => .access (.next (writeReg r v s))

/-- A host read: the value goes to the host, and nothing else happens (20 R208). -/
def hostRead (r : WindowReg) (s : State) : State := { s with hostReads := s.hostReads ++ [readReg r s] }

/-- Perform one event. -/
def performEvent (e : HostEvent) (s : State) : Fetch :=
  match e with
  | .write bits addr v =>
    match locate bits addr with
    | .error r => .access (.refused r)
    | .ok r => hostWrite r v s
  | .read bits addr =>
    match locate bits addr with
    | .error r => .access (.refused r)
    | .ok r => .access (.next (hostRead r s))
  | .reset => .access (.next (platformReset s))

/-- Take the host's next event (20 R210; log 1). With none, the core keeps its state (60 R813; log 3). -/
def fetch (s : State) : Fetch :=
  match s.hostQueue with
  | [] => .access (.next s)
  | e :: rest => performEvent e { s with hostQueue := rest }

end Sys2Proof.Machine
end

