-- ==== Sys2Proof/Machine/Step.lean ====
section
/-! DEFINITION. One step: the host's next access, and the command it issues, if any (00_scope.md R17, R18). -/

namespace Sys2Proof.Machine

/-- One atomic step (20 R209, R210). There is no program counter to move (10 R101). -/
def step (s : State) : Host.Outcome State Fault Refusal :=
  match fetch s with
  | .command i t => exec i t
  | .access o => o

/-- `s` with the table word `w` as the host's next access: a 32-bit write of it to CMD (30 R307, log 1, 12). -/
def State.withFetchWord (s : State) (nbits w : Nat) : State :=
  { s with hostQueue := .write 32 (.window 0x000) (BitVec.ofNat 32 (w % 2 ^ nbits)) :: s.hostQueue }

end Sys2Proof.Machine
end

