-- ==== Sys2Proof/Machine/HostProgram.lean ====
section
/-! DEFINITION. Host programs as lists of accesses: the lines of 30_encoding.md R307 and the macros of R308. -/

namespace Sys2Proof.Machine

/-- `WR <REG>, <value>` (R307). -/
def wr (r : WindowReg) (v : Word) : HostEvent := .write 32 (.window (regOffset r)) v

/-- `RD <REG>` (R307). -/
def rd (r : WindowReg) : HostEvent := .read 32 (.window (regOffset r))

/-- `<MNEMONIC>` or `<MNEMONIC> <len>` (R307). -/
def cmd (i : Instr) : HostEvent := wr .cmd (encode i)

/-- `le_words(b ++ zeros(64 − |b|))`: a byte string of at most 64 bytes laid out as 16 words (R308, 20 R204). -/
def packBytes (b : List Byte) : Block :=
  Vector.ofFn fun i : Fin 16 =>
    leWord (b.getD (4 * i.val) 0) (b.getD (4 * i.val + 1) 0) (b.getD (4 * i.val + 2) 0) (b.getD (4 * i.val + 3) 0)

/-- `LOADIN b` (R308). -/
def loadIn (b : List Byte) : List HostEvent := (List.finRange 16).map fun i => wr (.inData i) (packBytes b)[i]

/-- The 64-byte pieces of a byte string, the last one 1 to 64 bytes (R308); `fuel` pieces at most. -/
def pieces : Nat → List Byte → List (List Byte)
  | 0, _ => []
  | fuel + 1, b => if b.isEmpty then [] else b.take 64 :: pieces fuel (b.drop 64)

/-- `ABSORB b` (R308). -/
def absorb (b : List Byte) : List HostEvent :=
  (pieces b.length b).flatMap fun p => loadIn p ++ [cmd (.update p.length)]

/-- `le_words(k)` of a 32-byte key (R308, 20 R204). -/
def packKey (k : Vector Byte 32) : Cv :=
  Vector.ofFn fun i : Fin 8 => leWord k[4 * i.val] k[4 * i.val + 1] k[4 * i.val + 2] k[4 * i.val + 3]

/-- `SETKEY k` (R308): `k` is the key's 32 bytes. -/
def setKey (k : Vector Byte 32) : List HostEvent := (List.finRange 8).map fun i => wr (.keyIn i) (packKey k)[i]

/-- `HASH_NEW` (R308). -/
def hashNew : List HostEvent := [cmd .init]

/-- `HASH_NEW_KEYED k` (R308). -/
def hashNewKeyed (k : Vector Byte 32) : List HostEvent := setKey k ++ [cmd (.initKeyed 32)]

/-- `HASH_NEW_DERIVE c` (R308). -/
def hashNewDerive (c : List Byte) : List HostEvent := cmd .initDerive :: absorb c ++ [cmd .deriveCommit]

/-- Read `OUT_DATA[0..15]` (R308). -/
def readOutData : List HostEvent := (List.finRange 16).map fun i => rd (.outData i)

/-- `DIGEST n`: FINALIZE, then `ceil(n/64) − 1` SQUEEZEs, each followed by a read of OUT_DATA (R308, 43 R710). -/
def digestEvents (n : Nat) : List HostEvent :=
  cmd .finalize :: readOutData ++ (List.replicate ((n + 63) / 64 - 1) (cmd .squeeze :: readOutData)).flatten

/-- The digest: the first `n` bytes of `le_bytes` of the words read in order (R308). -/
def digestOf (n : Nat) (words : List Word) : List Byte := (leBytes words).take n

end Sys2Proof.Machine
end

