-- ==== Sys2Proof/Safety.lean ====
section
/-! DEFINITION. What counts as a proper state of the core, and the words in which the statements speak of it. -/

namespace Sys2Proof.Machine

/-- The number of 1 bits among the low `width` bits of `n`. -/
def popcountBits : (width n : Nat) → Nat
  | 0, _ => 0
  | width + 1, n => n % 2 + popcountBits width (n / 2)

/-- `popcount(n)` of a u64 (00_scope.md R12). -/
def popcount (n : U64) : Nat := popcountBits 64 n.toNat

/-- MODE_FLAGS holds one of its four legal values (10_state.md R110). -/
def LegalMode (m : Word) : Prop := m = 0x00 ∨ m = 0x10 ∨ m = 0x20 ∨ m = 0x40

/-- What holds of the hasher registers while they have a defined value, that is while FATAL = 0. -/
structure HasherInv (s : State) : Prop where
  /-- CV_STACK_LEN = popcount(CHUNK_COUNTER) (42 R611). -/
  stackLen : s.cvStackLen.val = popcount s.chunk.counter
  /-- At most 2^55 − 2 chunks have been completed (42 R612, R613). -/
  counterRange : s.chunk.counter.toNat ≤ 2 ^ 55 - 2
  /-- BLOCK_BUF[j] = 0 for j ≥ BLOCK_LEN (41 R506). -/
  zeroPadded : ∀ (j : Nat) (h : j < 64), s.chunk.blockLen.val ≤ j → s.chunk.buf[j] = 0
  /-- The last block stays in the buffer: an empty buffer means no input yet (41 R505). -/
  lastBlockKept : s.chunk.blockLen.val = 0 → s.chunk.blocksCompressed.val = 0 ∧ s.chunk.counter = 0
  /-- CHUNK_CV starts as KEY_WORDS (10 R113). -/
  firstBlockCv : s.chunk.blocksCompressed.val = 0 → s.chunk.cv = s.keyWords

/-- The invariant of every reachable state. -/
structure Inv (s : State) : Prop where
  /-- 10 R110. -/
  legalMode : LegalMode s.modeFlags
  /-- KEY_WORDS = IV in plain mode and in the derive-key context phase (10 R111). -/
  plainKey : s.modeFlags = 0x00 ∨ s.modeFlags = 0x20 → s.keyWords = iv
  /-- While the hasher registers are defined (60 R803). -/
  hasher : s.fatal = false → HasherInv s

/-- The commands that FATAL = 1 refuses (60 R803). -/
def refusedWhenFatal : Instr → Bool
  | .init => false
  | .initKeyed _ => false
  | .initDerive => false
  | .deriveCommit => true
  | .update _ => true
  | .finalize => true
  | .squeeze => true
  | .compress => false

/-- The RW registers of the window (20 R201). -/
def isReadWrite : WindowReg → Bool
  | .inData _ => true
  | .cmpCv _ => true
  | .cmpCtrLo => true
  | .cmpCtrHi => true
  | .cmpBlen => true
  | .cmpFlags => true
  | .cmpM _ => true
  | .cmd => false
  | .status => false
  | .chunkInfo => false
  | .stackInfo => false
  | .chunkCtrLo => false
  | .chunkCtrHi => false
  | .xofCtrLo => false
  | .xofCtrHi => false
  | .keyIn _ => false
  | .outData _ => false
  | .cmpOut _ => false
  | .reserved _ => false

/-- The code of the first check that fails for a legal command, in the order of 60 R802; OK if none does. A stack
overflow, the last check, is found only while UPDATE executes. -/
def firstFailingCheck (i : Instr) (s : State) : ErrCode :=
  if s.fatal && refusedWhenFatal i then .fatalState
  else
    match i with
    | .init => .ok
    | .initKeyed len => if len = 32 then .ok else .invalidKeyLength
    | .initDerive => .ok
    | .deriveCommit => if s.modeFlags = 0x20 then .ok else .sequenceError
    | .update len => if len ≤ 64 then .ok else .badLength
    | .finalize => .ok
    | .squeeze => if s.outValid then .ok else .sequenceError
    | .compress => .ok

/-- Input byte j: bits `8(j&3)+7 : 8(j&3)` of `IN_DATA[j >> 2]` (20 R204). -/
def inputByte (s : State) (j : Fin 64) : Byte := s.inData[j.val / 4].extractLsb' (8 * (j.val % 4)) 8

/-- A word written to CMD that is an illegal command, by the three clauses of 30 R304, on the word's number. -/
def IllegalWord (w : Word) : Prop :=
  (w.toNat % 256 = 0 ∨ 9 ≤ w.toNat % 256) ∨ w.toNat / 65536 ≠ 0 ∨
    (w.toNat / 256 % 256 ≠ 0 ∧ w.toNat % 256 ≠ 2 ∧ w.toNat % 256 ≠ 5)

/-- The next host event is the command word `w`, written to CMD. -/
def NextCommand (s : State) (w : Word) (rest : List HostEvent) : Prop :=
  s.hostQueue = .write 32 (.window 0x000) w :: rest

/-- The step of `s` runs the command `i`. -/
def StepRuns (s : State) (i : Instr) : Prop := ∃ t, fetch s = .command i t

/-- The step of `s` is the platform's reset. -/
def StepResets (s : State) : Prop := ∃ rest, s.hostQueue = .reset :: rest

/-- All bytes the current computation has absorbed: 1024 per completed chunk, and those of the current one (41 R500,
42 R607). -/
def absorbedBytes (s : State) : Nat := 1024 * s.chunk.counter.toNat + chunkLen s.chunk

/-- `s` and `t` agree on the hasher: mode, key, chunk registers, CV stack (42 R600). -/
def SameHasher (s t : State) : Prop :=
  t.modeFlags = s.modeFlags ∧ t.keyWords = s.keyWords ∧ t.chunk = s.chunk ∧ t.cvStack = s.cvStack ∧
    t.cvStackLen = s.cvStackLen

/-- One byte of `TreeUpdate`: finalize a full chunk, compress a full block, then buffer the byte (42 R614: TreeUpdate
"is a per-byte loop whose chunk decisions depend only on chunk_len and the presence of further bytes"). -/
def absorbByte (s : State) (b : Byte) : Except TreeStop State :=
  match makeRoom s with
  | .error e => .error e
  | .ok t =>
    let c := if t.chunk.blockLen.val = 64 then compressBlock t.modeFlags t.chunk else t.chunk
    .ok { t with chunk := fillBlock c [b] }

/-- Load a byte string of at most 64 bytes into IN_DATA and absorb it with one UPDATE; none unless it succeeds. -/
def absorbPiece (s : State) (p : List Byte) : Option State :=
  match exec (.update p.length) { s with inData := packBytes p } with
  | .next t => if t.err = .ok then some t else none
  | .fault _ => none
  | .refused _ => none

/-- Absorb the pieces one after the other. -/
def absorbPieces (s : State) (ps : List (List Byte)) : Option State := ps.foldlM absorbPiece s

/-- FINALIZE, then `k` SQUEEZEs (43 R705, R706); none unless all of them answer a next state. -/
def squeezeTimes : Nat → State → Option State
  | 0, s =>
    match exec .finalize s with
    | .next t => some t
    | .fault _ => none
    | .refused _ => none
  | k + 1, s =>
    match squeezeTimes k s with
    | none => none
    | some t =>
      match exec .squeeze t with
      | .next u => some u
      | .fault _ => none
      | .refused _ => none

end Sys2Proof.Machine
end

