-- ==== Sys2Proof/Reference.lean ====
section
/-! DEFINITION. The hash of a whole byte string, written without registers, from the rules of the chunk, the parent
node and the stack invariant (41 R503, R504; 42 R609, R611; 43 R704): what the statements on whole inputs compare the
machine with. -/

namespace Sys2Proof.Machine

/-- The Output of a chunk that holds the bytes `b`: full blocks are compressed while more bytes follow, the last block
(possibly short or empty) is the Output's. `start` is CHUNK_START for the first block, 0 afterwards (41 R502 to R504).
`fuel` bounds the number of blocks. -/
def chunkWalk (mode : Word) (counter : U64) : Nat → Word → Cv → List Byte → Output
  | 0, start, cv, b => ⟨cv, packBytes b, counter, BitVec.ofNat 32 b.length, mode ||| start ||| chunkEnd⟩
  | fuel + 1, start, cv, b =>
    if b.length ≤ 64 then ⟨cv, packBytes b, counter, BitVec.ofNat 32 b.length, mode ||| start ||| chunkEnd⟩
    else
      chunkWalk mode counter fuel 0
        (first8Words (compressFn cv (packBytes (b.take 64)) counter 64 (mode ||| start))) (b.drop 64)

/-- The Output of the `i`-th chunk, which holds the bytes `b` (at most 1024, so at most 16 blocks). -/
def chunkOutputOf (key : Cv) (mode : Word) (i : Nat) (b : List Byte) : Output :=
  chunkWalk mode (BitVec.ofNat 64 i) 16 chunkStart key b

/-- The chaining value of a complete subtree over 2^k chunk chaining values (42 R609, R611). -/
def subtreeCv (key : Cv) (mode : Word) : (k : Nat) → List Cv → Cv
  | 0, cvs => cvs.headD (Vector.replicate 8 0)
  | k + 1, cvs =>
    parentCv key mode (subtreeCv key mode k (cvs.take (2 ^ k))) (subtreeCv key mode k (cvs.drop (2 ^ k)))

/-- The stack of R611 for completed chunks `cvs`: complete subtrees whose sizes are distinct powers of two below 2^k
that sum to the number of chunks, the largest first (at the bottom). -/
def subtrees (key : Cv) (mode : Word) : (k : Nat) → List Cv → List Cv
  | 0, _ => []
  | k + 1, cvs =>
    if 2 ^ k ≤ cvs.length then
      subtreeCv key mode k (cvs.take (2 ^ k)) :: subtrees key mode k (cvs.drop (2 ^ k))
    else subtrees key mode k cvs

/-- How many chunks of an input of `n` bytes are complete: the last chunk stays current (42 R607). -/
def completedChunks (n : Nat) : Nat := (n - 1) / 1024

/-- The chaining values of the completed chunks of `b`. -/
def chunkCvs (key : Cv) (mode : Word) (b : List Byte) : List Cv :=
  (List.range (completedChunks b.length)).map fun i =>
    chainingValue (chunkOutputOf key mode i ((b.drop (1024 * i)).take 1024))

/-- The Output of the current chunk of `b`. -/
def lastChunkOutput (key : Cv) (mode : Word) (b : List Byte) : Output :=
  chunkOutputOf key mode (completedChunks b.length) (b.drop (1024 * completedChunks b.length))

/-- The root Output of the byte string `b`: from the current chunk's Output up the tree's right edge (43 R704). -/
def rootOutputOf (key : Cv) (mode : Word) (b : List Byte) : Output :=
  (subtrees key mode 55 (chunkCvs key mode b)).foldr
    (fun left o => parentOutput key mode left (chainingValue o)) (lastChunkOutput key mode b)

/-- The valid entries of the CV stack, the bottom first (10 R112). -/
def stackEntries (s : State) : List Cv := s.cvStack.toList.take s.cvStackLen.val

end Sys2Proof.Machine
end

