-- ==== Sys2Proof/Certificates/Slice0/Obligations.lean ====
section
/-! DEFINITION. The statements for the provers. Each docstring names the rules of spec/ it formalises. -/

open Sys2Proof Sys2Proof.Machine

/-! ## Encoding -/

/-- Decode and encode agree on every well-formed command, at every operand value (30 R300, R301, R302, R307). -/
def Obligations.DecodeOfEncodeIsIdentity : Prop :=
  ∀ i : Instr, i.wf = true → decode (encode i) = .ok i

/-- A word the decoder accepts is the encoding of the well-formed command it stands for, so no word has two meanings
and no bit is dropped (30 R300, R301). -/
def Obligations.EncodeOfDecodeIsIdentity : Prop :=
  ∀ (w : Word) (i : Instr), decode w = .ok i → i.wf = true ∧ encode i = w

/-- 30 R304: the illegal words are exactly those of clauses (a), (b), (c); writing one changes nothing but STATUS.ERR,
to code 2; every other word runs the command it decodes to. -/
def Obligations.IllegalWordsReportIllegalCommand : Prop :=
  ∀ (s : State) (w : Word) (rest : List HostEvent), NextCommand s w rest →
    (IllegalWord w → step s = .next { s with hostQueue := rest, err := .illegalCommand }) ∧
    (¬ IllegalWord w → ∃ i, decode w = .ok i ∧ step s = exec i { s with hostQueue := rest }) ∧
    ErrCode.illegalCommand.code = 2

/-- 30 R302 (spec/opcode_table.json): a legal word matches its own row under the row's mask, and rows of different
opcodes match no common word. -/
def Obligations.OpcodeRowsAreDisjoint : Prop :=
  (∀ (w : Word) (i : Instr), decode w = .ok i → w &&& tableMask i = tableMatch i) ∧
  (∀ (w : Word) (i j : Instr), w &&& tableMask i = tableMatch i → w &&& tableMask j = tableMatch j →
    opcode i = opcode j) ∧
  (∀ (w : Word) (i : Instr), w &&& tableMask i = tableMatch i → ∃ j, decode w = .ok j ∧ opcode j = opcode i)

/-- Words written out from 30 R300, R302 decode to what they stand for. -/
def Obligations.TableWordsDecode : Prop :=
  decode 0b00000000000000000000000000000001#32 = .ok .init ∧
  decode 0b00000000000000000010000000000010#32 = .ok (.initKeyed 32) ∧
  decode 0b00000000000000000000000000000011#32 = .ok .initDerive ∧
  decode 0b00000000000000000000000000000100#32 = .ok .deriveCommit ∧
  decode 0b00000000000000000000001100000101#32 = .ok (.update 3) ∧
  decode 0b00000000000000000000000000000110#32 = .ok .finalize ∧
  decode 0b00000000000000000000000000000111#32 = .ok .squeeze ∧
  decode 0b00000000000000000000000000001000#32 = .ok .compress ∧
  decode 0b00000000000000000000000000000000#32 = .error .reservedOpcode ∧
  decode 0b00000000000000000000000000001001#32 = .error .reservedOpcode

/-! ## The step and the host's port -/

/-- A step runs the decoded command: when the next host event writes a legal word to CMD, the step is `exec` of the
command at the state with that event taken off the queue (30 R301; the queue is the model's own, log 1). -/
def Obligations.StepRunsDecodedCommand : Prop :=
  (∀ (s : State) (w : Word) (rest : List HostEvent) (i : Instr), NextCommand s w rest → decode w = .ok i →
    step s = exec i { s with hostQueue := rest }) ∧
  (∀ (s : State) (w : Word) (i : Instr), decode w = .ok i → step (s.withFetchWord 32 w.toNat) = exec i s)

/-- 20 R210: a step takes exactly the next host event off the queue, in order, returns at most one read value, and
with no event the core keeps its state (60 R813). The queue is the model's own (log 1, 3). -/
def Obligations.StepTakesEventsInOrder : Prop :=
  (∀ s : State, s.hostQueue = [] → step s = .next s) ∧
  (∀ (s t : State) (e : HostEvent) (rest : List HostEvent), s.hostQueue = e :: rest → step s = .next t →
    t.hostQueue = rest ∧
    ((∃ bits addr v, e = .read bits addr ∧ t.hostReads = s.hostReads ++ [v]) ∨
      ((∀ bits addr, e ≠ .read bits addr) ∧ t.hostReads = s.hostReads)))

/-- 20 R206: an access that is not 32 bits wide, or not at a multiple of 4, is refused; a read of any other offset of
the window has a step, and a write of one is never refused. The two refusals' names, and that the width is looked at
first, so that a narrow and misaligned access is `accessWidth`, are the model's choice (log 4). -/
def Obligations.OnlyAlignedWordAccessesHaveAStep : Prop :=
  ∀ (s : State) (bits off : Nat) (v : Word) (rest : List HostEvent), off < 0x200 →
    (s.hostQueue = .write bits (.window off) v :: rest ∨ s.hostQueue = .read bits (.window off) :: rest) →
    (bits ≠ 32 → step s = .refused .accessWidth) ∧
    (bits = 32 → off % 4 ≠ 0 → step s = .refused .accessMisaligned) ∧
    (bits = 32 → off % 4 = 0 → s.hostQueue = .read bits (.window off) :: rest → ∃ t, step s = .next t) ∧
    (bits = 32 → off % 4 = 0 → ∀ r, step s ≠ .refused r)

/-- 20 R201: the register map. Each register stands at the offset the table gives it, and the map is one to one: an
aligned offset of the window reaches the register whose offset it is, and no other. -/
def Obligations.RegisterMapIsOneToOne : Prop :=
  (∀ (off : Nat) (r : WindowReg), locate 32 (.window off) = .ok r ↔ off = regOffset r) ∧
  (∀ off : Nat, off < 0x200 → off % 4 = 0 → ∃ r, locate 32 (.window off) = .ok r) ∧
  locate 32 (.window 0x000) = .ok .cmd ∧
  locate 32 (.window 0x004) = .ok .status ∧
  locate 32 (.window 0x008) = .ok .chunkInfo ∧
  locate 32 (.window 0x00C) = .ok .stackInfo ∧
  locate 32 (.window 0x010) = .ok .chunkCtrLo ∧
  locate 32 (.window 0x014) = .ok .chunkCtrHi ∧
  locate 32 (.window 0x018) = .ok .xofCtrLo ∧
  locate 32 (.window 0x01C) = .ok .xofCtrHi ∧
  (∀ i : Fin 8, locate 32 (.window (0x020 + 4 * i.val)) = .ok (.keyIn i)) ∧
  (∀ i : Fin 16, locate 32 (.window (0x040 + 4 * i.val)) = .ok (.inData i)) ∧
  (∀ i : Fin 16, locate 32 (.window (0x080 + 4 * i.val)) = .ok (.outData i)) ∧
  (∀ i : Fin 8, locate 32 (.window (0x0C0 + 4 * i.val)) = .ok (.cmpCv i)) ∧
  locate 32 (.window 0x0E0) = .ok .cmpCtrLo ∧
  locate 32 (.window 0x0E4) = .ok .cmpCtrHi ∧
  locate 32 (.window 0x0E8) = .ok .cmpBlen ∧
  locate 32 (.window 0x0EC) = .ok .cmpFlags ∧
  (∀ i : Fin 4, ∃ n, locate 32 (.window (0x0F0 + 4 * i.val)) = .ok (.reserved n)) ∧
  (∀ i : Fin 16, locate 32 (.window (0x100 + 4 * i.val)) = .ok (.cmpM i)) ∧
  (∀ i : Fin 16, locate 32 (.window (0x140 + 4 * i.val)) = .ok (.cmpOut i)) ∧
  (∀ i : Fin 32, ∃ n, locate 32 (.window (0x180 + 4 * i.val)) = .ok (.reserved n))

/-- 00 R8, 20 R200: the window is the 0x200 bytes from CORE_BASE, wherever that is; no other address is the core's
(refusing those is the model's choice, log 5). -/
def Obligations.WindowStandsAtCoreBase : Prop :=
  (∀ bits off : Nat, off < 0x200 →
    locate bits (.absolute (Config.coreBase + off)) = locate bits (.window off)) ∧
  (∀ bits address : Nat, address < Config.coreBase ∨ Config.coreBase + 0x200 ≤ address →
    locate bits (.absolute address) = .error .outsideWindow)

/-- 20 R208, R201, 10 R129: a read of any register returns its value and changes nothing else. The values of the
operand and result registers are the words State holds for them. (Those of STATUS, CHUNK_INFO, STACK_INFO and the
counters have statements of their own, as have the registers that read 0.) -/
def Obligations.ReadsHaveNoSideEffect : Prop :=
  (∀ (s : State) (r : WindowReg) (rest : List HostEvent), s.hostQueue = rd r :: rest →
    step s = .next { s with hostQueue := rest, hostReads := s.hostReads ++ [readReg r s] }) ∧
  ∀ s : State,
    (∀ i : Fin 16, readReg (.inData i) s = s.inData[i]) ∧
    (∀ i : Fin 16, readReg (.outData i) s = s.outData[i]) ∧
    (∀ i : Fin 8, readReg (.cmpCv i) s = s.cmpCv[i]) ∧
    (∀ i : Fin 16, readReg (.cmpM i) s = s.cmpM[i]) ∧
    readReg .cmpCtrLo s = s.cmpCtrLo ∧ readReg .cmpCtrHi s = s.cmpCtrHi ∧
    readReg .cmpBlen s = s.cmpBlen ∧ readReg .cmpFlags s = s.cmpFlags ∧
    (∀ i : Fin 16, readReg (.cmpOut i) s = s.cmpOut[i])

/-- 20 R201, R208, 10 R129: a write of a register other than CMD stores its value in an RW register, which then reads
it back, or in KEY_IN; every other register reads as before, and no register but the operand registers changes
(70 R904: the instance is not affected). -/
def Obligations.WritesStoreInTheirRegisterOnly : Prop :=
  ∀ (s : State) (r : WindowReg) (v : Word) (rest : List HostEvent), r ≠ .cmd → s.hostQueue = wr r v :: rest →
    ∃ t, step s = .next t ∧
      (isReadWrite r = true → readReg r t = v) ∧
      (isReadWrite r = false → readReg r t = readReg r s) ∧
      (∀ r', r' ≠ r → readReg r' t = readReg r' s) ∧
      (∀ i : Fin 8, r = .keyIn i → t.keyIn = s.keyIn.set i v) ∧
      ((∀ i : Fin 8, r ≠ .keyIn i) → t.keyIn = s.keyIn) ∧
      t = { s with
        hostQueue := rest
        keyIn := t.keyIn
        inData := t.inData
        cmpCv := t.cmpCv
        cmpM := t.cmpM
        cmpCtrLo := t.cmpCtrLo
        cmpCtrHi := t.cmpCtrHi
        cmpBlen := t.cmpBlen
        cmpFlags := t.cmpFlags }

/-- 20 R207: reserved offsets read 0 and ignore writes, read-only registers ignore writes, write-only registers read
0. -/
def Obligations.ReservedReadOnlyAndWriteOnlyOffsets : Prop :=
  ∀ (s : State) (off : Nat) (v : Word) (rest : List HostEvent), off % 4 = 0 →
    ((0x0F0 ≤ off ∧ off ≤ 0x0FC) ∨ (0x180 ≤ off ∧ off ≤ 0x1FC) →
      (s.hostQueue = .read 32 (.window off) :: rest →
        step s = .next { s with hostQueue := rest, hostReads := s.hostReads ++ [0] }) ∧
      (s.hostQueue = .write 32 (.window off) v :: rest → step s = .next { s with hostQueue := rest })) ∧
    ((0x004 ≤ off ∧ off ≤ 0x01C) ∨ (0x080 ≤ off ∧ off ≤ 0x0BC) ∨ (0x140 ≤ off ∧ off ≤ 0x17C) →
      s.hostQueue = .write 32 (.window off) v :: rest → step s = .next { s with hostQueue := rest }) ∧
    (off = 0x000 ∨ (0x020 ≤ off ∧ off ≤ 0x03C) →
      s.hostQueue = .read 32 (.window off) :: rest →
        step s = .next { s with hostQueue := rest, hostReads := s.hostReads ++ [0] })

/-- 10 R132, 60 R812, 92 D6: no read of any register depends on the hidden state: KEY_WORDS, CHUNK_CV, BLOCK_BUF, the
CV_STACK entries, the latched Output, KEY_IN. -/
def Obligations.HiddenStateIsUnreadable : Prop :=
  ∀ (s : State) (r : WindowReg) (rest : List HostEvent) (key cv ocv kin : Cv) (buf : Bytes64) (stack : Vector Cv 54)
    (oblock : Block) (oblen oflags : Word) (t u : State),
    s.hostQueue = rd r :: rest → step s = .next t →
    step { s with
        keyWords := key
        chunk := ⟨cv, buf, s.chunk.blockLen, s.chunk.blocksCompressed, s.chunk.counter⟩
        cvStack := stack
        outCv := ocv
        outBlock := oblock
        outBlen := oblen
        outFlags := oflags
        keyIn := kin } = .next u →
    u.hostReads = t.hostReads

/-- 10 R123, 60 R800: every field of STATUS, with the codes of ERR. -/
def Obligations.StatusFields : Prop :=
  ∀ s : State,
    (readReg .status s).toNat % 16 =
      (match s.err with
        | .ok => 0
        | .invalidKeyLength => 1
        | .illegalCommand => 2
        | .badLength => 3
        | .sequenceError => 4
        | .stackOverflow => 5
        | .fatalState => 6) ∧
    (readReg .status s).getLsbD 4 = s.outValid ∧
    (readReg .status s).getLsbD 5 = s.fatal ∧
    (readReg .status s).extractLsb' 6 2 = 0 ∧
    (readReg .status s).extractLsb' 8 8 = s.modeFlags.extractLsb' 0 8 ∧
    (readReg .status s).extractLsb' 16 16 = 0 ∧
    readReg .status State.reset = 0

/-- 10 R124, R118: every field of CHUNK_INFO, and the range of chunk_len. -/
def Obligations.ChunkInfoFields : Prop :=
  ∀ s : State,
    (readReg .chunkInfo s).toNat % 128 = s.chunk.blockLen.val ∧
    (readReg .chunkInfo s).getLsbD 7 = false ∧
    (readReg .chunkInfo s).toNat / 256 % 16 = s.chunk.blocksCompressed.val ∧
    (readReg .chunkInfo s).extractLsb' 12 4 = 0 ∧
    (readReg .chunkInfo s).toNat / 65536 % 2048 = 64 * s.chunk.blocksCompressed.val + s.chunk.blockLen.val ∧
    (readReg .chunkInfo s).extractLsb' 27 5 = 0 ∧
    64 * s.chunk.blocksCompressed.val + s.chunk.blockLen.val ≤ 1024 ∧
    readReg .chunkInfo State.reset = 0

/-- 10 R125, R126, R127: STACK_INFO and the two counters, read as two words each. -/
def Obligations.StackInfoAndCounterWords : Prop :=
  (∀ s : State,
    (readReg .stackInfo s).toNat = s.cvStackLen.val ∧ s.cvStackLen.val ≤ 54 ∧
    s.chunk.counter.toNat = (readReg .chunkCtrHi s).toNat * 2 ^ 32 + (readReg .chunkCtrLo s).toNat ∧
    s.xofCtr.toNat = (readReg .xofCtrHi s).toNat * 2 ^ 32 + (readReg .xofCtrLo s).toNat) ∧
  readReg .stackInfo State.reset = 0 ∧ readReg .chunkCtrLo State.reset = 0 ∧ readReg .chunkCtrHi State.reset = 0 ∧
  readReg .xofCtrLo State.reset = 0 ∧ readReg .xofCtrHi State.reset = 0

/-! ## Reset -/

/-- 10 R130, R129: the value of every register after reset. The CV_STACK entries, which the rule leaves unspecified,
are not spoken of. -/
def Obligations.ResetValues : Prop :=
  State.reset.modeFlags = 0 ∧
  State.reset.keyWords = iv ∧ State.reset.chunk.cv = iv ∧
  (∀ j : Fin 64, State.reset.chunk.buf[j] = 0) ∧
  State.reset.chunk.blockLen.val = 0 ∧ State.reset.chunk.blocksCompressed.val = 0 ∧
  State.reset.chunk.counter = 0 ∧ State.reset.cvStackLen.val = 0 ∧
  (∀ i : Fin 8, State.reset.outCv[i] = 0) ∧ (∀ i : Fin 16, State.reset.outBlock[i] = 0) ∧
  State.reset.outBlen = 0 ∧ State.reset.outFlags = 0 ∧
  State.reset.outValid = false ∧ State.reset.xofCtr = 0 ∧ State.reset.err = .ok ∧ State.reset.fatal = false ∧
  (∀ i : Fin 8, State.reset.keyIn[i] = 0) ∧
  (∀ r : WindowReg, readReg r State.reset = 0)

/-- 70 R900: the platform's reset puts every register at its reset value, from any state; of the CV_STACK entries,
which the rule leaves unspecified, nothing is said, and the model's own fields stay (log 15). -/
def Obligations.PlatformResetRestoresResetState : Prop :=
  ∀ (s : State) (rest : List HostEvent), s.hostQueue = .reset :: rest →
    ∃ t, step s = .next t ∧
      t = { State.reset with
        hostQueue := rest
        hostReads := s.hostReads
        freeCtr := s.freeCtr
        cvStack := t.cvStack }

/-- 70 R901 (derived in the spec): after INIT the hasher registers, OUT_VALID and STATUS have their reset values, and
INIT leaves every other register as it was. -/
def Obligations.InitEqualsResetOfHasher : Prop :=
  ∀ s : State, ∃ t, exec .init s = .next t ∧
    t.modeFlags = State.reset.modeFlags ∧ t.keyWords = State.reset.keyWords ∧ t.chunk = State.reset.chunk ∧
    t.cvStackLen = State.reset.cvStackLen ∧ t.outValid = State.reset.outValid ∧
    readReg .status t = readReg .status State.reset ∧
    t = { s with
      modeFlags := t.modeFlags
      keyWords := t.keyWords
      chunk := t.chunk
      cvStackLen := t.cvStackLen
      outValid := t.outValid
      fatal := t.fatal
      err := t.err }

/-! ## The compression core -/

/-- 40 R404: what G writes into its four words, each step on the words the step before left, and that it changes no
other word. The step order is the spec's from general knowledge (93 GK4). -/
def Obligations.MixGWritesFourWords : Prop :=
  ∀ (s : Block) (a b c d : Fin 16) (mx my : Word), a ≠ b → a ≠ c → a ≠ d → b ≠ c → b ≠ d → c ≠ d →
    let a1 := s[a] + s[b] + mx
    let d1 := (s[d] ^^^ a1).rotateRight 16
    let c1 := s[c] + d1
    let b1 := (s[b] ^^^ c1).rotateRight 12
    let a2 := a1 + b1 + my
    let d2 := (d1 ^^^ a2).rotateRight 8
    let c2 := c1 + d2
    let b2 := (b1 ^^^ c2).rotateRight 7
    (mixG s a b c d mx my)[a] = a2 ∧ (mixG s a b c d mx my)[b] = b2 ∧ (mixG s a b c d mx my)[c] = c2 ∧
    (mixG s a b c d mx my)[d] = d2 ∧
    ∀ i : Fin 16, i ≠ a → i ≠ b → i ≠ c → i ≠ d → (mixG s a b c d mx my)[i] = s[i]

/-- 40 R405 (derived in the spec): G calls on disjoint words commute, so the columns of a round may be computed in any
order, as may its diagonals. -/
def Obligations.DisjointMixGCommute : Prop :=
  ∀ (s : Block) (a b c d a' b' c' d' : Fin 16) (mx my mx' my' : Word),
    [a, b, c, d, a', b', c', d'].Nodup →
    mixG (mixG s a b c d mx my) a' b' c' d' mx' my' = mixG (mixG s a' b' c' d' mx' my') a b c d mx my

/-- 40 R405, R407 (derived in the spec): a round is the four column calls of G and then the four diagonal calls, each
with its pair of message words, in this order (the indices and pairs are the spec's from general knowledge, as are the
numbers of the permutation, R401, R406); round r of the iterated permutation reads the block words of row r of the schedule table, and the seven rounds are the seven
rows. -/
def Obligations.ScheduleTableEqualsIteratedPermutation : Prop :=
  (∀ s m : Block,
    let column0 := mixG s 0 4 8 12 m[0] m[1]
    let column1 := mixG column0 1 5 9 13 m[2] m[3]
    let column2 := mixG column1 2 6 10 14 m[4] m[5]
    let column3 := mixG column2 3 7 11 15 m[6] m[7]
    let diagonal0 := mixG column3 0 5 10 15 m[8] m[9]
    let diagonal1 := mixG diagonal0 1 6 11 12 m[10] m[11]
    let diagonal2 := mixG diagonal1 2 7 8 13 m[12] m[13]
    mixRound s m = mixG diagonal2 3 4 9 14 m[14] m[15]) ∧
  msgPermutation = #v[2, 6, 3, 10, 7, 0, 4, 13, 1, 11, 12, 5, 9, 14, 15, 8] ∧
  (∀ (m : Block) (i : Fin 16), (permute m)[i] = m[msgPermutation[i]]) ∧
  (∀ (block : Block) (r : Fin 7) (i : Fin 16), (permute^[r.val] block)[i] = block[scheduleTable[r][i]]) ∧
  (∀ s block : Block, mixRounds 7 s block =
    (List.finRange 7).foldl (fun s r => mixRound s (Vector.ofFn fun i : Fin 16 => block[scheduleTable[r][i]])) s)

/-- 40 R409, R410, R411: the initial state and the feed-forward of compress, and the values of IV (40 R400; 93 GK1). -/
def Obligations.CompressInitialisesAndFeedsForward : Prop :=
  iv = #v[0x6A09E667, 0xBB67AE85, 0x3C6EF372, 0xA54FF53A, 0x510E527F, 0x9B05688C, 0x1F83D9AB, 0x5BE0CD19] ∧
  ∀ (cv : Cv) (block : Block) (counter : U64) (blockLen flags : Word),
    let s := compressInit cv counter blockLen flags
    let r := mixRounds 7 s block
    (∀ i : Fin 8, s[i.val] = cv[i]) ∧ (∀ i : Fin 4, s[i.val + 8] = iv[i.val]) ∧
    s[12].toNat = counter.toNat % 2 ^ 32 ∧ s[13].toNat = counter.toNat / 2 ^ 32 ∧ s[14] = blockLen ∧ s[15] = flags ∧
    ∀ i : Fin 8, (compressFn cv block counter blockLen flags)[i.val] = r[i.val] ^^^ r[i.val + 8] ∧
      (compressFn cv block counter blockLen flags)[i.val + 8] = r[i.val + 8] ^^^ cv[i]

/-- 40 R412: COMPRESS runs in every state, the FATAL one among them, writes CMP_OUT and STATUS.ERR, and nothing else;
issuing it twice gives the same CMP_OUT; its word is 0x00000008. -/
def Obligations.CompressCommandWritesResult : Prop :=
  decode 0x00000008 = .ok .compress ∧
  ∀ s : State,
    let out := compressFn s.cmpCv s.cmpM (s.cmpCtrHi.setWidth 64 <<< 32 ||| s.cmpCtrLo.setWidth 64) s.cmpBlen s.cmpFlags
    let t := { s with cmpOut := out, err := .ok }
    exec .compress s = .next t ∧ exec .compress t = .next t

/-! ## Construction of a hasher -/

/-- 42 R602: INIT (word 0x00000001) constructs the plain-mode hasher in every state and leaves every other
register as it was. -/
def Obligations.InitConstructsPlainHasher : Prop :=
  decode 0x00000001 = .ok .init ∧
  ∀ s : State, exec .init s = .next { s with
    modeFlags := 0x00
    keyWords := iv
    chunk := ⟨iv, Vector.ofFn fun _ => 0, 0, 0, 0⟩
    cvStackLen := 0
    outValid := false
    fatal := false
    err := .ok }

/-- 42 R603: INIT_KEYED with LEN = 32 (word 0x00002002) constructs the keyed hasher from KEY_IN, also while FATAL = 1;
any other LEN
gives INVALID_KEY_LENGTH and changes nothing else. -/
def Obligations.InitKeyedConstructsOrReportsKeyLength : Prop :=
  decode 0x00002002 = .ok (.initKeyed 32) ∧
  (∀ s : State, exec (.initKeyed 32) s = .next { s with
    modeFlags := 0x10
    keyWords := s.keyIn
    chunk := ⟨s.keyIn, Vector.ofFn fun _ => 0, 0, 0, 0⟩
    cvStackLen := 0
    outValid := false
    fatal := false
    err := .ok }) ∧
  (∀ (s : State) (len : Nat), len ≠ 32 → exec (.initKeyed len) s = .next { s with err := .invalidKeyLength }) ∧
  ErrCode.invalidKeyLength.code = 1

/-- 42 R604: INIT_DERIVE (word 0x00000003) constructs the context hasher in every state. -/
def Obligations.InitDeriveConstructsContextHasher : Prop :=
  decode 0x00000003 = .ok .initDerive ∧
  ∀ s : State, exec .initDerive s = .next { s with
    modeFlags := 0x20
    keyWords := iv
    chunk := ⟨iv, Vector.ofFn fun _ => 0, 0, 0, 0⟩
    cvStackLen := 0
    outValid := false
    fatal := false
    err := .ok }

/-- 42 R605: in the context phase DERIVE_COMMIT (word 0x00000004) makes the first eight words of root block 0 the key
of the material
hasher; outside it, it reports SEQUENCE_ERROR and changes nothing else, a second DERIVE_COMMIT among the cases. -/
def Obligations.DeriveCommitKeysMaterialHasher : Prop :=
  decode 0x00000004 = .ok .deriveCommit ∧
  (∀ s : State, s.fatal = false → s.modeFlags = 0x20 →
    ∃ t, exec .deriveCommit s = .next t ∧
      (∀ i : Fin 8, t.keyWords[i] = (rootBlock (rootOutput s) 0)[i.val]) ∧
      t = { s with
        modeFlags := 0x40
        keyWords := t.keyWords
        chunk := ⟨t.keyWords, Vector.ofFn fun _ => 0, 0, 0, 0⟩
        cvStackLen := 0
        outValid := false
        err := .ok } ∧
      exec .deriveCommit t = .next { t with err := .sequenceError }) ∧
  (∀ s : State, s.fatal = false → s.modeFlags ≠ 0x20 →
    exec .deriveCommit s = .next { s with err := .sequenceError }) ∧
  ErrCode.sequenceError.code = 4

/-! ## UPDATE -/

/-- 42 R606: UPDATE reports BAD_LENGTH when LEN > 64, and with LEN = 0 changes nothing but STATUS.ERR, even when the
chunk is full. -/
def Obligations.UpdateChecksLength : Prop :=
  (∀ (s : State) (len : Nat), s.fatal = false → 64 < len → exec (.update len) s = .next { s with err := .badLength }) ∧
  (∀ s : State, s.fatal = false → exec (.update 0) s = .next { s with err := .ok }) ∧
  ErrCode.badLength.code = 3

/-- 42 R606, R607, R612, R614: from a proper state, UPDATE of at most 64 bytes completes as long as the whole input
stays within 2^55 − 1 full chunks; the hasher it leaves is the one that absorbs input bytes 0 to LEN − 1 of IN_DATA one
after the other, so it counts LEN bytes more; and it writes only the chunk registers, the CV stack and STATUS.ERR. -/
def Obligations.UpdateCompletesAndCountsBytes : Prop :=
  ∀ (s : State) (len : Nat), Inv s → s.fatal = false → len ≤ 64 →
    absorbedBytes s + len ≤ 1024 * (2 ^ 55 - 1) →
    ∃ t u, exec (.update len) s = .next t ∧
      (((List.finRange 64).take len).map (inputByte s)).foldlM absorbByte s = .ok u ∧ SameHasher u t ∧
      absorbedBytes t = absorbedBytes s + len ∧
      t = { s with chunk := t.chunk, cvStack := t.cvStack, cvStackLen := t.cvStackLen, err := .ok }

/-- 42 R608, R612, 60 R803: from a proper state, UPDATE overflows exactly when the whole input goes beyond 2^55 − 1 full
chunks, and within that limit it succeeds and FATAL stays 0. From any state that is not FATAL, proper or not, UPDATE of at
most 64 bytes overflows exactly when its push finds 54 entries: its bytes pass the end of the chunk (full before, or
filled by this UPDATE), the stack holds 54, and N = CHUNK_COUNTER + 1 is odd, so that nothing is popped. An overflow is
STACK_OVERFLOW and FATAL = 1, and no register changes but STATUS, the chunk registers and the CV stack, of whose values
nothing is said (log 8). -/
def Obligations.UpdateOverflowsTheStack : Prop :=
  (∀ (s : State) (len : Nat), Inv s → s.fatal = false → len ≤ 64 →
    ∃ t, exec (.update len) s = .next t ∧
      (1024 * (2 ^ 55 - 1) < absorbedBytes s + len → t.err = .stackOverflow) ∧
      (absorbedBytes s + len ≤ 1024 * (2 ^ 55 - 1) → t.err = .ok ∧ t.fatal = false)) ∧
  (∀ (s : State) (len : Nat), s.fatal = false → len ≤ 64 →
    ((∃ t, exec (.update len) s = .next t ∧ t.err = .stackOverflow) ↔
      1024 < chunkLen s.chunk + len ∧ s.cvStackLen.val = 54 ∧ (s.chunk.counter + 1).toNat % 2 = 1)) ∧
  (∀ (s t : State) (len : Nat), exec (.update len) s = .next t → t.err = .stackOverflow →
    t = { s with
      chunk := t.chunk
      cvStack := t.cvStack
      cvStackLen := t.cvStackLen
      freeCtr := t.freeCtr
      fatal := true
      err := .stackOverflow }) ∧
  ErrCode.stackOverflow.code = 5

/-- 41 R503, 20 R204: bytes that fit in the current block are only buffered: input byte k goes to BLOCK_BUF at
BLOCK_LEN + k, and nothing else of the chunk changes. -/
def Obligations.UpdateWithinBlockBuffersBytes : Prop :=
  ∀ (s : State) (len : Nat), s.fatal = false → 0 < len → s.chunk.blockLen.val + len ≤ 64 →
    ∃ t, exec (.update len) s = .next t ∧
      t = { s with chunk := t.chunk, err := .ok } ∧
      t.chunk.cv = s.chunk.cv ∧ t.chunk.blocksCompressed = s.chunk.blocksCompressed ∧
      t.chunk.counter = s.chunk.counter ∧ t.chunk.blockLen.val = s.chunk.blockLen.val + len ∧
      ∀ j : Fin 64,
        (j.val < s.chunk.blockLen.val ∨ s.chunk.blockLen.val + len ≤ j.val → t.chunk.buf[j] = s.chunk.buf[j]) ∧
        (∀ k : Fin 64, k.val < len → j.val = s.chunk.blockLen.val + k.val → t.chunk.buf[j] = inputByte s k)

/-- 41 R503, R502: bytes that pass the end of the current block, within the chunk, compress the full block once, with
the chunk counter, blockLen 64 and CHUNK_START only on the chunk's first block, and leave the rest in an otherwise zero
buffer. -/
def Obligations.UpdatePastBlockCompressesIt : Prop :=
  ∀ (s : State) (len : Nat) (full : Bytes64), s.fatal = false → len ≤ 64 → 64 < s.chunk.blockLen.val + len →
    chunkLen s.chunk + len ≤ 1024 →
    (∀ j : Fin 64, j.val < s.chunk.blockLen.val → full[j] = s.chunk.buf[j]) →
    (∀ j k : Fin 64, j.val = s.chunk.blockLen.val + k.val → full[j] = inputByte s k) →
    ∃ t, exec (.update len) s = .next t ∧
      t = { s with chunk := t.chunk, err := .ok } ∧
      t.chunk.cv = first8Words (compressFn s.chunk.cv (bufferWords full) s.chunk.counter 64
        (s.modeFlags ||| if s.chunk.blocksCompressed.val = 0 then 0x01 else 0x00)) ∧
      t.chunk.blocksCompressed.val = s.chunk.blocksCompressed.val + 1 ∧
      t.chunk.counter = s.chunk.counter ∧ t.chunk.blockLen.val = s.chunk.blockLen.val + len - 64 ∧
      ∀ j : Fin 64,
        (t.chunk.blockLen.val ≤ j.val → t.chunk.buf[j] = 0) ∧
        (∀ k : Fin 64, j.val < t.chunk.blockLen.val → s.chunk.blockLen.val + k.val = 64 + j.val →
          t.chunk.buf[j] = inputByte s k)

/-- 42 R607, 41 R501: a byte that comes to a full chunk finalizes it: its chaining value is merged under the new total
N = CHUNK_COUNTER + 1, and a fresh chunk with that counter and KEY_WORDS takes the bytes. -/
def Obligations.UpdatePastChunkStartsTheNext : Prop :=
  ∀ (s u : State) (len : Nat), s.fatal = false → 0 < len → len ≤ 64 → chunkLen s.chunk = 1024 →
    addChunkCv (chainingValue (chunkOutput s.modeFlags s.chunk)) (s.chunk.counter + 1) s = .ok u →
    ∃ t, exec (.update len) s = .next t ∧
      t = { s with chunk := t.chunk, cvStack := u.cvStack, cvStackLen := u.cvStackLen, err := .ok } ∧
      t.chunk.cv = s.keyWords ∧ t.chunk.blocksCompressed.val = 0 ∧ t.chunk.counter = s.chunk.counter + 1 ∧
      t.chunk.blockLen.val = len ∧
      ∀ j : Fin 64, t.chunk.buf[j] = if j.val < len then inputByte s j else 0

/-- 42 R606: bytes of IN_DATA at index ≥ LEN are ignored. -/
def Obligations.UpdateIgnoresBytesBeyondLength : Prop :=
  ∀ (s t : State) (data : Block) (len : Nat), len ≤ 64 →
    (∀ j : Fin 64, j.val < len → inputByte { s with inData := data } j = inputByte s j) →
    exec (.update len) s = .next t →
    exec (.update len) { s with inData := data } = .next { t with inData := data }

/-- 42 R614, at the command level: two ways of cutting the same bytes into UPDATEs either both fail or leave the same
hasher, and change nothing else but IN_DATA and STATUS.ERR. -/
def Obligations.UpdatesDependOnTheBytesOnly : Prop :=
  ∀ (s : State) (ps qs : List (List Byte)), s.fatal = false → (∀ p ∈ ps, p.length ≤ 64) → (∀ q ∈ qs, q.length ≤ 64) →
    ps.flatten = qs.flatten →
    (absorbPieces s ps = none ∧ absorbPieces s qs = none) ∨
    ∃ t u, absorbPieces s ps = some t ∧ absorbPieces s qs = some u ∧
      u = { t with inData := u.inData, err := u.err } ∧
      t = { s with
        chunk := t.chunk
        cvStack := t.cvStack
        cvStackLen := t.cvStackLen
        inData := t.inData
        err := t.err }

/-! ## The CV stack and the tree -/

/-- 42 R608: AddChunkCV with an odd N pushes; with an even N it pops the top entry as the left child and goes on with
the parent's chaining value and N shifted right by 1. The parent's chaining value is that of its Output: KEY_WORDS, left
before right, counter 0, 64 bytes, PARENT and the mode (R609, R610). -/
def Obligations.AddChunkCvMergesThenPushes : Prop :=
  (∀ (key left right : Cv) (mode : Word),
    parentCv key mode left right = chainingValue ⟨key, left ++ right, 0, 64, 0x04 ||| mode⟩) ∧
  (∀ (s : State) (cv : Cv) (n : U64), n.toNat % 2 = 1 → (h : s.cvStackLen.val < 54) →
    addChunkCv cv n s =
      .ok { s with cvStack := s.cvStack.set s.cvStackLen.val cv, cvStackLen := ⟨s.cvStackLen.val + 1, by omega⟩ }) ∧
  (∀ (s : State) (cv : Cv) (n : U64), n.toNat % 2 = 1 → s.cvStackLen.val = 54 →
    addChunkCv cv n s = .error .overflow) ∧
  (∀ (s : State) (cv : Cv) (n : U64) (top : Fin 54), n.toNat % 2 = 0 → s.cvStackLen.val = top.val + 1 →
    addChunkCv cv n s =
      addChunkCv (parentCv s.keyWords s.modeFlags s.cvStack[top] cv) (n >>> 1)
        { s with cvStackLen := ⟨top.val, by omega⟩ })

/-- 42 R611 (the spec's own words on the stack): if the stack holds the complete subtrees of the chunks completed so
far, largest first, then after AddChunkCV it holds those of one chunk more, and its length is popcount(N). -/
def Obligations.AddChunkCvKeepsCompleteSubtrees : Prop :=
  ∀ (s t : State) (cv : Cv) (n : U64) (cvs : List Cv), n.toNat = cvs.length + 1 → n.toNat < 2 ^ 55 →
    stackEntries s = subtrees s.keyWords s.modeFlags 55 cvs → addChunkCv cv n s = .ok t →
    stackEntries t = subtrees s.keyWords s.modeFlags 55 (cvs ++ [cv]) ∧ t.cvStackLen.val = popcount n

/-- 43 R704, R701, 40 R413: the root Output is the current chunk's Output taken up the stack from the top entry to the
bottom, the entry as the left child; the chaining value of an Output is the first eight words of its compression. -/
def Obligations.RootOutputWalksTheRightEdge : Prop :=
  (∀ s : State, rootOutput s =
    (stackEntries s).foldr
      (fun left o => ⟨s.keyWords, left ++ chainingValue o, 0, 64, 0x04 ||| s.modeFlags⟩)
      (chunkOutput s.modeFlags s.chunk)) ∧
  (∀ (o : Output) (i : Fin 8),
    (chainingValue o)[i] = (compressFn o.cv o.block o.counter o.blockLen o.flags)[i.val])

/-- From a freshly constructed hasher of any mode, absorbing any bytes in pieces of at most 64 succeeds
up to the stack limit, and the root Output is that of the whole byte string: its chunks, its complete subtrees, the
right edge (41 R503, R504; 42 R607 to R611; 43 R704). -/
def Obligations.MachineHashesTheWholeInput : Prop :=
  ∀ (s : State) (ps : List (List Byte)), s.fatal = false → s.chunk = chunkInit s.keyWords 0 → s.cvStackLen.val = 0 →
    (∀ p ∈ ps, p.length ≤ 64) → ps.flatten.length ≤ 1024 * (2 ^ 55 - 1) →
    ∃ t, absorbPieces s ps = some t ∧ rootOutput t = rootOutputOf s.keyWords s.modeFlags ps.flatten ∧
      t.chunk.counter.toNat = completedChunks ps.flatten.length ∧
      stackEntries t = subtrees s.keyWords s.modeFlags 55 (chunkCvs s.keyWords s.modeFlags ps.flatten)

/-! ## The output finalizer -/

/-- 43 R705: FINALIZE (word 0x00000006) latches the root Output, writes keystream block 0 and sets XOF_CTR = 1 and
OUT_VALID, in every mode, in every state that is not FATAL; nothing else changes. While FATAL = 1 it reports
FATAL_STATE. -/
def Obligations.FinalizeLatchesRootOutput : Prop :=
  decode 0x00000006 = .ok .finalize ∧
  (∀ s : State, s.fatal = false → exec .finalize s = .next { s with
    outCv := (rootOutput s).cv
    outBlock := (rootOutput s).block
    outBlen := (rootOutput s).blockLen
    outFlags := (rootOutput s).flags
    outData := compressFn (rootOutput s).cv (rootOutput s).block 0 (rootOutput s).blockLen ((rootOutput s).flags ||| 0x08)
    xofCtr := 1
    outValid := true
    err := .ok }) ∧
  (∀ s : State, s.fatal = true → exec .finalize s = .next { s with err := .fatalState })

/-- 43 R706, R709: SQUEEZE (word 0x00000007) writes block XOF_CTR of the latched Output and increments XOF_CTR modulo
2^64, so that it wraps from 2^64 − 1 to 0; with OUT_VALID = 0 it reports SEQUENCE_ERROR, and while FATAL = 1
FATAL_STATE, and changes nothing else. -/
def Obligations.SqueezeWritesNextBlock : Prop :=
  decode 0x00000007 = .ok .squeeze ∧
  (∀ s : State, s.fatal = false → s.outValid = true → ∃ t, exec .squeeze s = .next t ∧
    t = { s with
      outData := compressFn s.outCv s.outBlock s.xofCtr s.outBlen (s.outFlags ||| 0x08)
      xofCtr := t.xofCtr
      err := .ok } ∧
    t.xofCtr.toNat = (s.xofCtr.toNat + 1) % 2 ^ 64) ∧
  (∀ s : State, s.fatal = false → s.outValid = false → exec .squeeze s = .next { s with err := .sequenceError }) ∧
  (∀ s : State, s.fatal = true → exec .squeeze s = .next { s with err := .fatalState }) ∧
  ErrCode.sequenceError.code = 4

/-- 43 R702, R703, R705, R706, R710, 30 R308 (DIGEST): after FINALIZE and k SQUEEZEs, OUT_DATA holds keystream block k
of the root Output of the state FINALIZE ran in, and XOF_CTR is k + 1; and the bytes of OUT_DATA after FINALIZE and after
each SQUEEZE of the max(1, ceil(n/64)) commands, joined and cut to n bytes, are RootOutputBytes of that Output and n. -/
def Obligations.SqueezesStreamTheKeystream : Prop :=
  (∀ (s : State) (k : Nat), s.fatal = false → ∃ t, squeezeTimes k s = some t ∧
    t.outData = rootBlock (rootOutput s) (BitVec.ofNat 64 k) ∧ t.xofCtr = BitVec.ofNat 64 (k + 1) ∧
    SameHasher s t) ∧
  (∀ (s : State) (n : Nat), s.fatal = false → ∃ blocks : List Block,
    blocks.length = max 1 ((n + 63) / 64) ∧
    (∀ (k : Nat) (h : k < blocks.length), ∃ t, squeezeTimes k s = some t ∧ t.outData = blocks[k]) ∧
    digestOf n (blocks.flatMap Vector.toList) = rootOutputBytes (rootOutput s) n)

/-- 43 R708: FINALIZE and SQUEEZE write only the output registers and STATUS.ERR, so an UPDATE after them continues
the same input. -/
def Obligations.FinalizeAndSqueezeKeepTheHasher : Prop :=
  ∀ (s t : State) (i : Instr), i = .finalize ∨ i = .squeeze → exec i s = .next t →
    t = { s with
      outCv := t.outCv
      outBlock := t.outBlock
      outBlen := t.outBlen
      outFlags := t.outFlags
      outData := t.outData
      xofCtr := t.xofCtr
      outValid := t.outValid
      err := t.err } ∧
    ∀ (len : Nat) (u : State), exec (.update len) s = .next u → ∃ v, exec (.update len) t = .next v ∧ SameHasher u v ∧
      v.fatal = u.fatal ∧ v.err = u.err

/-- 43 R703, R707, R710: RootOutputBytes gives as many bytes as asked for, and a shorter output is the first bytes of a
longer one. -/
def Obligations.ShorterOutputIsInitialPart : Prop :=
  ∀ (o : Output) (l1 l2 : Nat), l1 ≤ l2 →
    rootOutputBytes o l1 = (rootOutputBytes o l2).take l1 ∧ (rootOutputBytes o l1).length = l1

/-! ## Errors and FATAL -/

/-- 60 R801: a command that reports an error changes nothing but STATUS.ERR, with the single exception of
STACK_OVERFLOW, and no command ends the machine in a refusal. -/
def Obligations.ErrorsChangeOnlyTheErrorCode : Prop :=
  (∀ (i : Instr) (s t : State), exec i s = .next t → t.err ≠ .ok → t.err ≠ .stackOverflow →
    t = { s with err := t.err }) ∧
  (∀ (i : Instr) (s : State) (r : Refusal), exec i s ≠ .refused r)

/-- 60 R802: the code a CMD write leaves is that of the first failing check: ILLEGAL_COMMAND, FATAL_STATE, the operand
check, the sequence check, and last STACK_OVERFLOW, which only UPDATE can find. -/
def Obligations.ChecksAreMadeInOrder : Prop :=
  ∀ (s t : State) (w : Word) (rest : List HostEvent), NextCommand s w rest → step s = .next t →
    (IllegalWord w → t.err = .illegalCommand) ∧
    (∀ i, decode w = .ok i →
      t.err = firstFailingCheck i s ∨
      (firstFailingCheck i s = .ok ∧ t.err = .stackOverflow ∧ ∃ len, i = .update len))

/-- 60 R803: while FATAL = 1, DERIVE_COMMIT, UPDATE, FINALIZE and SQUEEZE are refused with FATAL_STATE and change
nothing else; INIT, INIT_KEYED 32 and INIT_DERIVE execute and clear FATAL; COMPRESS executes and keeps it. -/
def Obligations.FatalStateRefusesAndRecovers : Prop :=
  (∀ (s : State) (i : Instr), s.fatal = true → refusedWhenFatal i = true →
    exec i s = .next { s with err := .fatalState }) ∧
  (∀ (s : State) (i : Instr), s.fatal = true → i = .init ∨ i = .initKeyed 32 ∨ i = .initDerive →
    ∃ t, exec i s = .next t ∧ t.fatal = false ∧ t.err = .ok) ∧
  (∀ s : State, s.fatal = true → ∃ t, exec .compress s = .next t ∧ t.fatal = true ∧ t.err = .ok) ∧
  ErrCode.fatalState.code = 6

/-- 60 R803, R806: over every step, only UPDATE sets FATAL, and then reports STACK_OVERFLOW; only the platform's reset
and a successful INIT, INIT_KEYED or INIT_DERIVE clear it. -/
def Obligations.OnlyTheseStepsChangeFatal : Prop :=
  (∀ s t : State, step s = .next t → s.fatal = false → t.fatal = true →
    t.err = .stackOverflow ∧ ∃ len, StepRuns s (.update len)) ∧
  (∀ s t : State, step s = .next t → s.fatal = true → t.fatal = false →
    StepResets s ∨ StepRuns s .init ∨ StepRuns s (.initKeyed 32) ∨ StepRuns s .initDerive)

/-! ## Rules over the whole machine -/

/-- 10 R110, R111: only INIT, INIT_KEYED, INIT_DERIVE, DERIVE_COMMIT and reset write MODE_FLAGS and KEY_WORDS. -/
def Obligations.OnlyTheseStepsChangeModeOrKey : Prop :=
  ∀ s t : State, step s = .next t → t.modeFlags ≠ s.modeFlags ∨ t.keyWords ≠ s.keyWords →
    StepResets s ∨ StepRuns s .init ∨ (∃ len, StepRuns s (.initKeyed len)) ∨ StepRuns s .initDerive ∨
      StepRuns s .deriveCommit

/-- 70 R905: OUT_DATA is overwritten only by FINALIZE and SQUEEZE, and CMP_OUT only by COMPRESS (or reset). -/
def Obligations.OnlyTheseStepsChangeResults : Prop :=
  (∀ s t : State, step s = .next t → t.outData ≠ s.outData →
    StepResets s ∨ StepRuns s .finalize ∨ StepRuns s .squeeze) ∧
  (∀ s t : State, step s = .next t → t.cmpOut ≠ s.cmpOut → StepResets s ∨ StepRuns s .compress)

/-- 10 R121, R122: OUT_VALID is set by FINALIZE and cleared by reset, the INIT commands and DERIVE_COMMIT; XOF_CTR is
changed by FINALIZE to 1, by SQUEEZE to the next value, by reset to 0, and by nothing else. -/
def Obligations.OnlyTheseStepsChangeOutputControl : Prop :=
  (∀ s t : State, step s = .next t → s.outValid = false → t.outValid = true → StepRuns s .finalize) ∧
  (∀ s t : State, step s = .next t → s.outValid = true → t.outValid = false →
    StepResets s ∨ StepRuns s .init ∨ StepRuns s (.initKeyed 32) ∨ StepRuns s .initDerive ∨
      StepRuns s .deriveCommit) ∧
  (∀ s t : State, step s = .next t → t.xofCtr ≠ s.xofCtr →
    (StepResets s ∧ t.xofCtr = 0) ∨ (StepRuns s .finalize ∧ t.xofCtr = 1) ∨
      (StepRuns s .squeeze ∧ t.xofCtr = s.xofCtr + 1))

/-- 10 R112, 42 R607, R608: the chunk registers and the CV stack are changed only by UPDATE, the commands that construct a
hasher, and reset. -/
def Obligations.OnlyTheseStepsChangeChunkOrStack : Prop :=
  (∀ s t : State, step s = .next t → t.chunk ≠ s.chunk ∨ t.cvStackLen ≠ s.cvStackLen →
    StepResets s ∨ StepRuns s .init ∨ StepRuns s (.initKeyed 32) ∨ StepRuns s .initDerive ∨
      StepRuns s .deriveCommit ∨ ∃ len, StepRuns s (.update len)) ∧
  (∀ s t : State, step s = .next t → t.cvStack ≠ s.cvStack →
    StepResets s ∨ ∃ len, StepRuns s (.update len))

/-- 10 R132 (derived in the spec): in every mode, the low four flag bits of a compression say which kind of node it is:
chunk block, chunk Output, parent, with or without ROOT; the mode's own bits are in all of them. -/
def Obligations.FlagsTellNodeKinds : Prop :=
  ∀ (m : Word) (c : ChunkRegs), LegalMode m →
    let start : Word := if c.blocksCompressed.val = 0 then 0x01 else 0x00
    blockFlags m c = m + start ∧ chunkOutputFlags m c = m + start + 0x02 ∧ parentNodeFlags m = m + 0x04 ∧
    rootBlockFlags (chunkOutputFlags m c) = m + start + 0x0A ∧ rootBlockFlags (parentNodeFlags m) = m + 0x0C

/-- 00 R13: le_words and le_bytes are inverse. 30 R308, 20 R204: LOADIN lays out a byte string of at most 64 bytes as
itself and zeros up to 64 bytes, and SETKEY a 32-byte key as itself. -/
def Obligations.LittleEndianRoundTrip : Prop :=
  (∀ ws : List Word, leWords (leBytes ws) = ws) ∧
  (∀ b : List Byte, b.length % 4 = 0 → leBytes (leWords b) = b) ∧
  (∀ (ws : List Word) (i j : Nat) (hi : i < ws.length), j < 4 →
    (leBytes ws)[4 * i + j]? = some (ws[i].extractLsb' (8 * j) 8)) ∧
  (∀ b : List Byte, b.length ≤ 64 → leBytes (packBytes b).toList = b ++ List.replicate (64 - b.length) 0) ∧
  (∀ k : Vector Byte 32, leBytes (packKey k).toList = k.toList)

/-! ## The invariant -/

/-- The reset state meets the invariant. -/
def Obligations.ResetStateMeetsInvariant : Prop := Inv State.reset

/-- Every step keeps the invariant, from any state that meets it: the mode stays legal (10 R110), KEY_WORDS = IV in
plain mode and the context phase (R111), and while FATAL = 0 the stack length is popcount(CHUNK_COUNTER) (42 R611), the
counter stays in range (R613), the buffer is zero-padded (41 R506) and the last block stays in it (R505). -/
def Obligations.StepKeepsInvariant : Prop :=
  ∀ s t : State, Inv s → step s = .next t → Inv t

/-- 42 R608 (derived in the spec: the loop never pops an empty stack): from a state that meets the invariant no step
ends in the model's fault (log 9). -/
def Obligations.InvariantExcludesFaults : Prop :=
  ∀ (s : State) (f : Fault), Inv s → step s ≠ .fault f
end

