-- ==== Sys2Proof/Laws/Chunk.lean ====
section
/-! SUPPORT. The chunk accumulator: ChunkUpdate is a fold over its bytes, and counts them (41 R503, R507). -/

namespace Sys2Proof.Machine

/-! ## Buffering -/

theorem writeBytes_append (buf : Bytes64) (i : Nat) (xs ys : List Byte) :
    writeBytes buf i (xs ++ ys) = writeBytes (writeBytes buf i xs) (i + xs.length) ys := by
  induction xs generalizing buf i with
  | nil => simp [writeBytes]
  | cons x xs ih => simp [writeBytes, ih, Nat.add_assoc, Nat.add_comm 1]

@[simp] theorem fillBlock_nil (c : ChunkRegs) : fillBlock c [] = c := by
  have := c.blockLen.isLt
  cases c; simp [fillBlock, writeBytes]

@[simp] theorem fillBlock_blockLen (c : ChunkRegs) (xs : List Byte) (h : c.blockLen.val + xs.length ≤ 64) :
    (fillBlock c xs).blockLen.val = c.blockLen.val + xs.length := by
  simp only [fillBlock, Fin.ofNat]; omega

theorem fillBlock_append (c : ChunkRegs) (xs ys : List Byte) (h : c.blockLen.val + xs.length ≤ 64) :
    fillBlock c (xs ++ ys) = fillBlock (fillBlock c xs) ys := by
  have hb := fillBlock_blockLen c xs h
  have : (fillBlock c (xs ++ ys)).buf = (fillBlock (fillBlock c xs) ys).buf := by
    show writeBytes _ _ _ = writeBytes (writeBytes c.buf _ xs) (fillBlock c xs).blockLen.val ys
    rw [hb, writeBytes_append]
  have h2 : (fillBlock c (xs ++ ys)).blockLen = (fillBlock (fillBlock c xs) ys).blockLen := by
    show Fin.ofNat 65 _ = Fin.ofNat 65 ((fillBlock c xs).blockLen.val + ys.length)
    rw [hb, List.length_append, Nat.add_assoc]
  have e : ∀ a b : ChunkRegs, a.cv = b.cv → a.buf = b.buf → a.blockLen = b.blockLen →
      a.blocksCompressed = b.blocksCompressed → a.counter = b.counter → a = b := by
    rintro ⟨⟩ ⟨⟩; simp; intros; simp_all
  exact e _ _ rfl this h2 rfl rfl

/-- One byte of ChunkUpdate: compress a full buffer, then buffer the byte (41 R503). -/
def chunkByte (mode : Word) (c : ChunkRegs) (b : Byte) : ChunkRegs :=
  fillBlock (if c.blockLen.val = 64 then compressBlock mode c else c) [b]

theorem foldl_chunkByte_fill (mode : Word) (xs : List Byte) (c : ChunkRegs) (h : c.blockLen.val + xs.length ≤ 64) :
    xs.foldl (chunkByte mode) c = fillBlock c xs := by
  induction xs generalizing c with
  | nil => simp
  | cons x xs ih =>
    simp only [List.length_cons] at h
    have h1 : c.blockLen.val ≠ 64 := by omega
    have h2 : chunkByte mode c x = fillBlock c [x] := by simp [chunkByte, h1]
    have h3 := fillBlock_blockLen c [x] (by simp; omega)
    rw [List.foldl_cons, h2, ih _ (by rw [h3]; simp; omega),
      show x :: xs = [x] ++ xs from rfl, fillBlock_append c [x] xs (by simp; omega)]

theorem chunkUpdateLoop_eq_foldl (mode : Word) (fuel : Nat) (data : List Byte) (c : ChunkRegs)
    (h : data.length ≤ fuel) : chunkUpdateLoop mode fuel data c = data.foldl (chunkByte mode) c := by
  induction fuel generalizing data c with
  | zero => simp at h; simp [h, chunkUpdateLoop]
  | succ fuel ih =>
    cases data with
    | nil => simp [chunkUpdateLoop]
    | cons b bs =>
      simp only [chunkUpdateLoop, List.isEmpty_cons, Bool.false_eq_true, if_false]
      set d := if c.blockLen.val = 64 then compressBlock mode c else c with hd
      have hlt : d.blockLen.val < 64 := by
        rw [hd]; split
        · simp [compressBlock]
        · have := c.blockLen.isLt; omega
      have hfirst : (b :: bs).foldl (chunkByte mode) c = (b :: bs).foldl (chunkByte mode) d := by
        have : chunkByte mode d b = chunkByte mode c b := by
          have : d.blockLen.val ≠ 64 := by omega
          simp only [chunkByte, this, if_false, ← hd]
        simp [this]
      set take := min (64 - d.blockLen.val) (b :: bs).length with ht
      have htl : ((b :: bs).take take).length = take := by simp [ht]
      have hpos : 0 < take := by simp [ht]; omega
      rw [ih _ _ (by simp only [List.length_drop, List.length_cons] at *; omega), hfirst,
        ← foldl_chunkByte_fill mode _ d (by rw [htl, ht]; have := Nat.min_le_left (64 - d.blockLen.val) (b :: bs).length; omega),
        ← List.foldl_append, List.take_append_drop]

theorem chunkUpdate_eq_foldl (mode : Word) (data : List Byte) (c : ChunkRegs) :
    chunkUpdate mode data c = data.foldl (chunkByte mode) c := chunkUpdateLoop_eq_foldl _ _ _ _ le_rfl

theorem chunkLen_chunkByte (mode : Word) (c : ChunkRegs) (b : Byte) (h : chunkLen c < 1024) :
    chunkLen (chunkByte mode c b) = chunkLen c + 1 := by
  have h1 := c.blockLen.isLt
  have h2 := c.blocksCompressed.isLt
  unfold chunkByte
  split
  · rename_i h64
    simp only [chunkLen, fillBlock, compressBlock, Fin.ofNat] at *
    simp
    omega
  · simp only [chunkLen, fillBlock, Fin.ofNat] at *
    simp
    omega

theorem chunkLen_foldl (mode : Word) (data : List Byte) (c : ChunkRegs) (h : chunkLen c + data.length ≤ 1024) :
    chunkLen (data.foldl (chunkByte mode) c) = chunkLen c + data.length := by
  induction data generalizing c with
  | nil => simp
  | cons b bs ih =>
    simp only [List.length_cons] at h
    have := chunkLen_chunkByte mode c b (by omega)
    rw [List.foldl_cons, ih _ (by omega), this, List.length_cons]; omega

theorem chunkLen_le (c : ChunkRegs) : chunkLen c ≤ 1024 := by
  have h1 := c.blockLen.isLt
  have h2 := c.blocksCompressed.isLt
  unfold chunkLen; omega

end Sys2Proof.Machine
end

