-- ==== Sys2Proof/Laws/Tree.lean ====
section
/-! SUPPORT. TreeUpdate is a per-byte loop (42 R614) and changes only the chunk registers and the CV stack. -/

namespace Sys2Proof.Machine

/-- All that AddChunkCV changes when it succeeds. -/
theorem addChunkCv_frame {cv : Cv} {n : U64} {s t : State} (h : addChunkCv cv n s = .ok t) :
    t = { s with cvStack := t.cvStack, cvStackLen := t.cvStackLen } := by
  unfold addChunkCv at h
  split at h
  · cases h
  · split at h
    · cases h
    · cases h; rfl

theorem completeChunk_frame {s t : State} (h : completeChunk s = .ok t) :
    t = { s with cvStack := t.cvStack, cvStackLen := t.cvStackLen,
                 chunk := chunkInit s.keyWords (s.chunk.counter + 1) } := by
  simp only [completeChunk] at h
  split at h
  · cases h
  · rename_i u hu
    have := addChunkCv_frame hu
    cases h; rw [this]

theorem makeRoom_cases {s t : State} (h : makeRoom s = .ok t) :
    (chunkLen s.chunk < 1024 ∧ t = s) ∨
    (chunkLen s.chunk = 1024 ∧
      t = { s with
        cvStack := t.cvStack
        cvStackLen := t.cvStackLen
        chunk := chunkInit s.keyWords (s.chunk.counter + 1) }) := by
  unfold makeRoom at h
  split at h
  · rename_i hc; exact .inr ⟨hc, completeChunk_frame h⟩
  · rename_i hc; cases h; exact .inl ⟨by have := chunkLen_le s.chunk; omega, rfl⟩

theorem chunkLen_chunkInit (key : Cv) (n : U64) : chunkLen (chunkInit key n) = 0 := by
  simp [chunkLen, chunkInit]

theorem makeRoom_chunkLen_lt {s t : State} (h : makeRoom s = .ok t) : chunkLen t.chunk < 1024 := by
  obtain ⟨hlt, rfl⟩ | ⟨-, ht⟩ := makeRoom_cases h
  · exact hlt
  · rw [ht]; simp [chunkLen_chunkInit]

theorem makeRoom_of_lt {s : State} (h : chunkLen s.chunk < 1024) : makeRoom s = .ok s := by
  simp [makeRoom, Nat.ne_of_lt h]

theorem absorbByte_of_room {s : State} (b : Byte) (h : chunkLen s.chunk < 1024) :
    absorbByte s b = .ok { s with chunk := chunkByte s.modeFlags s.chunk b } := by
  simp only [absorbByte, makeRoom_of_lt h, chunkByte]

theorem foldlM_absorbByte_of_room (data : List Byte) (s : State) (h : chunkLen s.chunk + data.length ≤ 1024) :
    data.foldlM absorbByte s = .ok { s with chunk := data.foldl (chunkByte s.modeFlags) s.chunk } := by
  induction data generalizing s with
  | nil => rfl
  | cons b bs ih =>
    simp only [List.length_cons] at h
    rw [List.foldlM_cons, absorbByte_of_room b (by omega)]
    have := chunkLen_chunkByte s.modeFlags s.chunk b (by omega)
    exact ih { s with chunk := chunkByte s.modeFlags s.chunk b } (by simp only [this]; omega)

theorem treeUpdateLoop_eq_foldlM (fuel : Nat) (data : List Byte) (s : State) (h : data.length ≤ fuel) :
    treeUpdateLoop fuel data s = data.foldlM absorbByte s := by
  induction fuel generalizing data s with
  | zero => simp at h; subst h; rfl
  | succ fuel ih =>
    cases data with
    | nil => rfl
    | cons b bs =>
      simp only [treeUpdateLoop, List.isEmpty_cons, Bool.false_eq_true, if_false]
      cases hm : makeRoom s with
      | error e => simp [absorbByte, hm]; rfl
      | ok t =>
        have hlt := makeRoom_chunkLen_lt hm
        have hfirst : (b :: bs).foldlM absorbByte s = (b :: bs).foldlM absorbByte t := by
          have : absorbByte s b = absorbByte t b := by
            simp only [absorbByte, hm, makeRoom_of_lt hlt]
          simp only [List.foldlM_cons, this]
        simp only
        set take := min (1024 - chunkLen t.chunk) (b :: bs).length with ht
        have hpos : 0 < take := by simp [ht]; omega
        have htl : ((b :: bs).take take).length = take := by simp [ht]
        have hle : take ≤ 1024 - chunkLen t.chunk := Nat.min_le_left _ _
        rw [ih _ _ (by simp only [List.length_drop, List.length_cons] at *; omega), hfirst, chunkUpdate_eq_foldl]
        conv_rhs => rw [← List.take_append_drop take (b :: bs), List.foldlM_append,
          foldlM_absorbByte_of_room _ t (by rw [htl]; omega)]
        rfl

theorem treeUpdate_eq_foldlM (data : List Byte) (s : State) :
    treeUpdate data s = data.foldlM absorbByte s := treeUpdateLoop_eq_foldlM _ _ _ le_rfl

theorem treeUpdate_append (xs ys : List Byte) (s : State) :
    treeUpdate (xs ++ ys) s = (treeUpdate xs s).bind (treeUpdate ys) := by
  simp only [treeUpdate_eq_foldlM, List.foldlM_append]
  cases xs.foldlM absorbByte s with
  | error e => rfl
  | ok t => simp [Except.bind, bind, treeUpdate_eq_foldlM]

theorem absorbByte_frame {s t : State} {b : Byte} (h : absorbByte s b = .ok t) :
    t = { s with chunk := t.chunk, cvStack := t.cvStack, cvStackLen := t.cvStackLen } := by
  unfold absorbByte at h
  split at h
  · cases h
  · rename_i u hu
    obtain ⟨-, rfl⟩ | ⟨-, hu'⟩ := makeRoom_cases hu
    · cases h; rfl
    · cases h; rw [hu']

theorem foldlM_absorbByte_frame {data : List Byte} {s t : State} (h : data.foldlM absorbByte s = .ok t) :
    t = { s with chunk := t.chunk, cvStack := t.cvStack, cvStackLen := t.cvStackLen } := by
  induction data generalizing s with
  | nil => cases h; rfl
  | cons b bs ih =>
    rw [List.foldlM_cons] at h
    cases hb : absorbByte s b with
    | error e => rw [hb] at h; cases h
    | ok u =>
      rw [hb] at h
      have h1 := absorbByte_frame hb
      have h2 := ih h
      rw [h1] at h2; exact h2

theorem treeUpdate_frame {data : List Byte} {s t : State} (h : treeUpdate data s = .ok t) :
    t = { s with chunk := t.chunk, cvStack := t.cvStack, cvStackLen := t.cvStackLen } :=
  foldlM_absorbByte_frame (treeUpdate_eq_foldlM data s ▸ h)

end Sys2Proof.Machine
end

