-- ==== Sys2Proof/Laws/Merge.lean ====
section
/-! SUPPORT. popcount and the length of the CV stack (42 R608, R611, R612). -/

namespace Sys2Proof.Machine

theorem getLsbD_zero_eq_decide (n : U64) : n.getLsbD 0 = decide (n.toNat % 2 = 1) := by
  simp [BitVec.getLsbD, Nat.testBit_zero]

/-- The merge under the stack invariant: it never runs out of entries, and leaves popcount(N) − 1 of them (42 R608,
R611). -/
theorem mergeSubtrees_len (key : Cv) (mode : Word) (stack : Vector Cv 54) (width : Nat) :
    ∀ (len : Nat) (h : len ≤ 54) (cv : Cv) (n : U64), 1 ≤ n.toNat → n.toNat < 2 ^ width →
      len = popcountBits width (n.toNat - 1) →
      ∃ top cv', mergeSubtrees key mode stack len h cv n = some (top, cv') ∧
        top.val + 1 = popcountBits width n.toNat := by
  induction width with
  | zero => intro len h cv n h1 h2; omega
  | succ width ih =>
    intro len h cv n h1 h2 hlen
    by_cases hodd : n.toNat % 2 = 1
    · have hb : n.getLsbD 0 = true := by rw [getLsbD_zero_eq_decide]; simpa using hodd
      have e1 : (n.toNat - 1) % 2 = 0 := by omega
      have e2 : (n.toNat - 1) / 2 = n.toNat / 2 := by omega
      simp only [popcountBits, e1, e2] at hlen
      cases len with
      | zero => exact ⟨0, cv, by simp only [mergeSubtrees, hb, if_true], by simp only [popcountBits]; simp; omega⟩
      | succ k =>
        exact ⟨⟨k + 1, Nat.lt_succ_of_le h⟩, cv, by simp only [mergeSubtrees, hb, if_true], by simp only [popcountBits]; omega⟩
    · have hb : n.getLsbD 0 = false := by rw [getLsbD_zero_eq_decide]; simpa using hodd
      have e1 : (n.toNat - 1) % 2 = 1 := by omega
      have e2 : (n.toNat - 1) / 2 = n.toNat / 2 - 1 := by omega
      simp only [popcountBits, e1, e2] at hlen
      have hs : (n >>> 1).toNat = n.toNat / 2 := by simp [BitVec.toNat_ushiftRight, Nat.shiftRight_eq_div_pow]
      cases len with
      | zero => omega
      | succ k =>
        obtain ⟨top, cv', e, htop⟩ := ih k (Nat.le_of_succ_le h) (parentCv key mode stack[k] cv) (n >>> 1)
          (by rw [hs]; omega) (by rw [hs]; rw [Nat.pow_succ] at h2; omega) (by rw [hs]; omega)
        refine ⟨top, cv', ?_, ?_⟩
        · simp only [mergeSubtrees, hb]; simpa using e
        · simp only [popcountBits]; rw [hs] at htop; omega

theorem popcountBits_le (width n : Nat) : popcountBits width n ≤ width := by
  induction width generalizing n with
  | zero => simp [popcountBits]
  | succ w ih => have := ih (n / 2); simp only [popcountBits]; omega

theorem popcountBits_ones (width : Nat) : popcountBits width (2 ^ width - 1) = width := by
  induction width with
  | zero => rfl
  | succ w ih =>
    have hp : 0 < 2 ^ w := Nat.pos_of_ne_zero (by simp)
    have e1 : (2 ^ (w + 1) - 1) % 2 = 1 := by rw [Nat.pow_succ]; omega
    have e2 : (2 ^ (w + 1) - 1) / 2 = 2 ^ w - 1 := by rw [Nat.pow_succ]; omega
    simp only [popcountBits, e1, e2, ih]; omega

theorem popcountBits_lt (width n : Nat) (h : n < 2 ^ width - 1) : popcountBits width n < width := by
  induction width generalizing n with
  | zero => simp at h
  | succ w ih =>
    rw [Nat.pow_succ] at h
    simp only [popcountBits]
    by_cases h2 : n / 2 < 2 ^ w - 1
    · have := ih _ h2; omega
    · have := popcountBits_le w (n / 2)
      have : n % 2 = 0 := by omega
      omega

theorem popcountBits_add (k width n : Nat) (h : n < 2 ^ width) :
    popcountBits (width + k) n = popcountBits width n := by
  induction width generalizing n with
  | zero =>
    simp at h; subst h
    simp only [popcountBits, Nat.zero_add]
    induction k with
    | zero => rfl
    | succ k ih => simp [popcountBits, ih]
  | succ w ih =>
    rw [show w + 1 + k = (w + k) + 1 from by omega]
    simp only [popcountBits]
    rw [ih _ (by rw [Nat.pow_succ] at h; omega)]

theorem popcount_eq_55 (n : U64) (h : n.toNat < 2 ^ 55) : popcount n = popcountBits 55 n.toNat :=
  popcountBits_add 9 55 _ h

/-- AddChunkCV under the stack invariant: overflow exactly at popcount 55, else the new length (42 R611, R612). -/
theorem addChunkCv_cases (cv : Cv) (n : U64) (s : State) (h1 : 1 ≤ n.toNat)
    (hlen : s.cvStackLen.val = popcount (n - 1)) :
    (popcount n = 55 ∧ addChunkCv cv n s = .error .overflow) ∨
    (popcount n ≤ 54 ∧ ∃ t, addChunkCv cv n s = .ok t ∧ t.cvStackLen.val = popcount n) := by
  have hsub : (n - 1).toNat = n.toNat - 1 := by
    rw [BitVec.toNat_sub_of_le (by show 1#64 ≤ n; simpa [BitVec.le_def] using h1)]; rfl
  have hl : s.cvStackLen.val = popcountBits 64 (n.toNat - 1) := by rw [hlen, popcount, hsub]
  obtain ⟨top, cv', e, htop⟩ := mergeSubtrees_len s.keyWords s.modeFlags s.cvStack 64 s.cvStackLen.val
    (Nat.le_of_lt_succ s.cvStackLen.isLt) cv n h1 n.isLt hl
  have htop' : top.val + 1 = popcount n := htop
  have := top.isLt
  by_cases h54 : top.val = 54
  · exact .inl ⟨by omega, by simp only [addChunkCv, e]; simp [h54]⟩
  · refine .inr ⟨by omega, ?_⟩
    simp only [addChunkCv, e, h54, dite_false]
    exact ⟨_, rfl, htop'⟩

/-- What the merge loop leaves of the stack's length: all of it for an odd N, less for an even one (42 R608). -/
theorem mergeSubtrees_some_len (key : Cv) (mode : Word) (stack : Vector Cv 54) :
    ∀ (len : Nat) (h : len ≤ 54) (cv : Cv) (n : U64) (r : Fin 55 × Cv),
      mergeSubtrees key mode stack len h cv n = some r →
      (n.toNat % 2 = 1 ∧ r.1.val = len) ∨ (n.toNat % 2 = 0 ∧ r.1.val < len) := by
  intro len
  induction len with
  | zero =>
    intro h cv n r e
    rw [mergeSubtrees, getLsbD_zero_eq_decide] at e
    split at e
    · rename_i ho; cases e; exact .inl ⟨of_decide_eq_true ho, rfl⟩
    · cases e
  | succ len ih =>
    intro h cv n r e
    rw [mergeSubtrees, getLsbD_zero_eq_decide] at e
    split at e
    · rename_i ho; cases e; exact .inl ⟨of_decide_eq_true ho, rfl⟩
    · rename_i ho
      have hr := ih _ _ _ _ e
      rw [decide_eq_true_eq] at ho
      exact .inr ⟨by omega, by omega⟩

theorem mergeSubtrees_odd (key : Cv) (mode : Word) (stack : Vector Cv 54) (len : Nat) (h : len ≤ 54) (cv : Cv) (n : U64)
    (hn : n.toNat % 2 = 1) : mergeSubtrees key mode stack len h cv n = some (⟨len, Nat.lt_succ_of_le h⟩, cv) := by
  cases len <;> rw [mergeSubtrees, getLsbD_zero_eq_decide, hn] <;> rfl

/-- When AddChunkCV overflows, in any state (42 R608, R612). -/
theorem addChunkCv_overflow_iff (cv : Cv) (n : U64) (s : State) :
    addChunkCv cv n s = .error .overflow ↔ s.cvStackLen.val = 54 ∧ n.toNat % 2 = 1 := by
  have hl := Nat.le_of_lt_succ s.cvStackLen.isLt
  unfold addChunkCv
  cases hm : mergeSubtrees s.keyWords s.modeFlags s.cvStack s.cvStackLen.val hl cv n with
  | none =>
    simp only [reduceCtorEq, Except.error.injEq, false_iff, not_and]
    intro _ hodd
    rw [mergeSubtrees_odd _ _ _ _ _ _ _ hodd] at hm
    cases hm
  | some r =>
    have hr := mergeSubtrees_some_len _ _ _ _ _ _ _ _ hm
    obtain ⟨len, cv'⟩ := r
    simp only at hr ⊢
    split <;> simp <;> omega

end Sys2Proof.Machine
end

