-- ==== Sys2Proof/Laws/Absorb.lean ====
section
/-! SUPPORT. Absorbing bytes under the invariant of the hasher registers (42 R607, R611, R612; 41 R505, R506). -/

namespace Sys2Proof.Machine

theorem toNat_succ_of_le {n : U64} (h : n.toNat ≤ 2 ^ 55 - 2) : (n + 1).toNat = n.toNat + 1 := by
  rw [BitVec.toNat_add]; simp; omega

/-- What of the invariant also holds between the two halves of `absorbByte`. -/
structure HasherCore (s : State) : Prop where
  stackLen : s.cvStackLen.val = popcount s.chunk.counter
  counterRange : s.chunk.counter.toNat ≤ 2 ^ 55 - 2
  zeroPadded : ∀ (j : Nat) (h : j < 64), s.chunk.blockLen.val ≤ j → s.chunk.buf[j] = 0
  firstBlockCv : s.chunk.blocksCompressed.val = 0 → s.chunk.cv = s.keyWords

theorem HasherInv.toCore {s : State} (h : HasherInv s) : HasherCore s :=
  ⟨h.stackLen, h.counterRange, h.zeroPadded, h.firstBlockCv⟩

/-- Making room under the invariant: an overflow, exactly at 2^55 − 1 full chunks, or a next state (42 R607, R612). -/
theorem makeRoom_of_core {s : State} (hs : HasherCore s) :
    (absorbedBytes s = 1024 * (2 ^ 55 - 1) ∧ makeRoom s = .error .overflow) ∨
    (absorbedBytes s < 1024 * (2 ^ 55 - 1) ∧ ∃ t, makeRoom s = .ok t ∧ HasherCore t ∧
      absorbedBytes t = absorbedBytes s) := by
  have hr := hs.counterRange
  by_cases hfull : chunkLen s.chunk = 1024
  · have hn := toNat_succ_of_le hr
    have hadd := addChunkCv_cases (chainingValue (chunkOutput s.modeFlags s.chunk)) (s.chunk.counter + 1) s
      (by omega) (by rw [hs.stackLen, BitVec.add_sub_cancel])
    have hpc := popcount_eq_55 (s.chunk.counter + 1) (by omega)
    obtain ⟨hp, he⟩ | ⟨hp, t, he, ht⟩ := hadd
    · refine .inl ⟨?_, by simp only [makeRoom, hfull, if_true, completeChunk, he]⟩
      have : ¬ (s.chunk.counter + 1).toNat < 2 ^ 55 - 1 := fun hlt => by
        have := popcountBits_lt 55 _ hlt; omega
      simp only [absorbedBytes]; omega
    · have hlt : (s.chunk.counter + 1).toNat ≠ 2 ^ 55 - 1 := fun e => by
        rw [e, popcountBits_ones] at hpc; omega
      refine .inr ⟨by simp only [absorbedBytes]; omega, { t with chunk := chunkInit s.keyWords (s.chunk.counter + 1) },
        by simp only [makeRoom, hfull, if_true, completeChunk, he], ?_, ?_⟩
      · exact
          { stackLen := ht
            counterRange := by show (s.chunk.counter + 1).toNat ≤ _; omega
            zeroPadded := fun j h _ => by simp [chunkInit]
            firstBlockCv := fun _ => by rw [addChunkCv_frame he]; rfl }
      · show 1024 * (s.chunk.counter + 1).toNat + chunkLen (chunkInit _ _) = _
        rw [chunkLen_chunkInit]; simp only [absorbedBytes]; omega
  · have := chunkLen_le s.chunk
    exact .inr ⟨by simp only [absorbedBytes]; omega, s, makeRoom_of_lt (by omega), hs, rfl⟩

theorem fillBlock_one_buf (c : ChunkRegs) (b : Byte) :
    (fillBlock c [b]).buf = c.buf.setIfInBounds c.blockLen.val b := rfl

/-- Buffering one byte keeps the chunk's part of the invariant. -/
theorem HasherCore.withByte {s : State} (hs : HasherCore s) (b : Byte) (hroom : chunkLen s.chunk < 1024) :
    HasherInv { s with chunk := chunkByte s.modeFlags s.chunk b } := by
  have h1 := s.chunk.blockLen.isLt
  have h2 := s.chunk.blocksCompressed.isLt
  have hpos : 0 < (chunkByte s.modeFlags s.chunk b).blockLen.val := by
    unfold chunkByte
    split
    · simp [fillBlock, compressBlock, Fin.ofNat]
    · simp [fillBlock, Fin.ofNat]; omega
  refine ⟨?_, ?_, ?_, fun h => absurd h (Nat.ne_of_gt hpos), ?_⟩
  · have : (chunkByte s.modeFlags s.chunk b).counter = s.chunk.counter := by
      unfold chunkByte; split <;> rfl
    simpa only [this] using hs.stackLen
  · have : (chunkByte s.modeFlags s.chunk b).counter = s.chunk.counter := by
      unfold chunkByte; split <;> rfl
    simpa only [this] using hs.counterRange
  · intro j hj hle
    simp only [chunkByte] at hle ⊢
    split at hle
    · simp only [*, if_true, fillBlock_one_buf] at hle ⊢
      simp [fillBlock, compressBlock, Fin.ofNat] at hle
      rw [Vector.getElem_setIfInBounds_ne]
      · simp [compressBlock]
      · simp [compressBlock]; omega
    · rename_i hne
      simp only [hne, if_false, fillBlock_one_buf]
      simp [fillBlock, Fin.ofNat] at hle
      rw [Vector.getElem_setIfInBounds_ne]
      · exact hs.zeroPadded j hj (by omega)
      · omega
  · intro hz
    simp only [chunkByte] at hz ⊢
    split at hz
    · exfalso
      simp only [fillBlock, compressBlock, Fin.ofNat, chunkLen] at hz hroom
      omega
    · rename_i hne
      simp only [hne, if_false]
      exact hs.firstBlockCv hz

/-- One byte absorbed under the invariant: an overflow, exactly at 2^55 − 1 full chunks, or a next state. -/
theorem absorbByte_of_core {s : State} (hs : HasherCore s) (b : Byte) :
    (absorbedBytes s = 1024 * (2 ^ 55 - 1) ∧ absorbByte s b = .error .overflow) ∨
    (absorbedBytes s < 1024 * (2 ^ 55 - 1) ∧ ∃ t, absorbByte s b = .ok t ∧ HasherInv t ∧
      absorbedBytes t = absorbedBytes s + 1) := by
  obtain ⟨h, e⟩ | ⟨h, t, e, ht, hb⟩ := makeRoom_of_core hs
  · exact .inl ⟨h, by simp only [absorbByte, e]⟩
  · have hroom := makeRoom_chunkLen_lt e
    refine .inr ⟨h, _, by simp only [absorbByte, e]; rfl, ht.withByte b hroom, ?_⟩
    show 1024 * (chunkByte t.modeFlags t.chunk b).counter.toNat + chunkLen (chunkByte t.modeFlags t.chunk b) = _
    have : (chunkByte t.modeFlags t.chunk b).counter = t.chunk.counter := by
      unfold chunkByte; split <;> rfl
    rw [this, chunkLen_chunkByte _ _ _ hroom, ← hb]; rfl

theorem foldlM_absorbByte_of_inv {data : List Byte} {s : State} (hs : HasherInv s) :
    (1024 * (2 ^ 55 - 1) < absorbedBytes s + data.length ∧ data.foldlM absorbByte s = .error .overflow) ∨
    (absorbedBytes s + data.length ≤ 1024 * (2 ^ 55 - 1) ∧ ∃ t, data.foldlM absorbByte s = .ok t ∧
      HasherInv t ∧ absorbedBytes t = absorbedBytes s + data.length) := by
  induction data generalizing s with
  | nil =>
    have h1 := hs.counterRange
    have h2 := chunkLen_le s.chunk
    exact .inr ⟨by simp only [absorbedBytes, List.length_nil]; omega, s, rfl, hs, rfl⟩
  | cons b bs ih =>
    rw [List.foldlM_cons, List.length_cons]
    obtain ⟨h, e⟩ | ⟨h, t, e, ht, hb⟩ := absorbByte_of_core hs.toCore b
    · exact .inl ⟨by omega, by rw [e]; rfl⟩
    · obtain ⟨h', e'⟩ | ⟨h', u, e', hu, hb'⟩ := ih ht
      · exact .inl ⟨by omega, by rw [e]; exact e'⟩
      · exact .inr ⟨by omega, u, by rw [e]; exact e', hu, by omega⟩

/-- TreeUpdate under the invariant: it overflows exactly past 2^55 − 1 full chunks, and else absorbs every byte. -/
theorem treeUpdate_of_inv {data : List Byte} {s : State} (hs : HasherInv s) :
    (1024 * (2 ^ 55 - 1) < absorbedBytes s + data.length ∧ treeUpdate data s = .error .overflow) ∨
    (absorbedBytes s + data.length ≤ 1024 * (2 ^ 55 - 1) ∧ ∃ t, treeUpdate data s = .ok t ∧
      HasherInv t ∧ absorbedBytes t = absorbedBytes s + data.length) := by
  rw [treeUpdate_eq_foldlM]; exact foldlM_absorbByte_of_inv hs

theorem leBytes_length (ws : List Word) : (leBytes ws).length = 4 * ws.length := by
  induction ws with
  | nil => rfl
  | cons w ws ih => simp only [leBytes, List.flatMap_cons, List.length_append] at *; rw [ih]; simp [wordBytes]; omega

theorem inputBytes_length (len : Nat) (s : State) (h : len ≤ 64) : (inputBytes len s).length = len := by
  simp [inputBytes, leBytes_length]; omega

end Sys2Proof.Machine
end

