-- ==== Sys2Proof/Laws/Blocks.lean ====
section
/-! SUPPORT. A chunk's Output is that of its byte string, block by block (41 R503, R504). -/

namespace Sys2Proof.Machine

theorem getElem_writeBytes (bs : List Byte) : ∀ (buf : Bytes64) (i j : Nat) (hj : j < 64),
    (writeBytes buf i bs)[j] = if i ≤ j ∧ j < i + bs.length then bs.getD (j - i) 0 else buf[j] := by
  induction bs with
  | nil => intro buf i j hj; simp [writeBytes]
  | cons b bs ih =>
    intro buf i j hj
    rw [writeBytes, ih]
    simp only [List.length_cons]
    by_cases h1 : i = j
    · subst h1
      simp
    · by_cases h2 : i + 1 ≤ j ∧ j < i + 1 + bs.length
      · rw [if_pos h2, if_pos (by omega)]
        rw [show j - i = (j - (i + 1)) + 1 by omega]; simp
      · rw [if_neg h2, if_neg (by omega)]
        rw [Vector.getElem_setIfInBounds_ne]; exact h1

theorem bufferWords_writeBytes_zero (b : List Byte) :
    bufferWords (writeBytes (Vector.replicate 64 0) 0 b) = packBytes b := by
  ext i hi
  simp only [bufferWords, packBytes, Vector.getElem_ofFn, getElem_writeBytes]
  have key : ∀ j, (if 0 ≤ j ∧ j < 0 + b.length then b.getD (j - 0) 0 else (0 : Byte)) = b.getD j 0 := by
    intro j; simp; intro h; simp [List.getElem?_eq_none h]
  simp only [Vector.getElem_replicate, key]

/-- An empty, zeroed buffer. -/
def FreshBlock (c : ChunkRegs) : Prop := c.buf = Vector.replicate 64 0 ∧ c.blockLen = 0

theorem chunkOutput_fill (mode : Word) (c : ChunkRegs) (b : List Byte) (h : FreshBlock c) (hb : b.length ≤ 64) :
    chunkOutput mode (fillBlock c b) =
      ⟨c.cv, packBytes b, c.counter, BitVec.ofNat 32 b.length, mode ||| startFlag c ||| chunkEnd⟩ := by
  obtain ⟨h1, h2⟩ := h
  have hl : (fillBlock c b).blockLen.val = b.length := by rw [fillBlock_blockLen _ _ (by simp [h2]; omega)]; simp [h2]
  simp only [chunkOutput, hl]
  simp only [fillBlock, h1, h2, chunkOutputFlags, startFlag]
  rw [show ((0 : Fin 65) : Nat) = 0 from rfl, bufferWords_writeBytes_zero]

theorem chunkWalk_eq (mode : Word) (fuel : Nat) : ∀ (c : ChunkRegs) (b : List Byte), FreshBlock c →
    64 * c.blocksCompressed.val + b.length ≤ 1024 → b.length ≤ 64 * fuel →
    chunkOutput mode (b.foldl (chunkByte mode) c) = chunkWalk mode c.counter fuel (startFlag c) c.cv b := by
  induction fuel with
  | zero =>
    intro c b hc _ hb
    have : b = [] := List.length_eq_zero_iff.mp (by omega)
    subst this
    rw [show c = fillBlock c [] by simp]
    simpa [chunkWalk] using chunkOutput_fill mode c [] hc (by simp)
  | succ fuel ih =>
    intro c b hc hcap hb
    rw [chunkWalk]
    split
    · rename_i hs
      rw [foldl_chunkByte_fill mode b c (by simp [hc.2]; omega), chunkOutput_fill mode c b hc hs]
    · rename_i hs
      have hsplit : b = b.take 64 ++ b.drop 64 := (List.take_append_drop 64 b).symm
      have ht : (b.take 64).length = 64 := by simp; omega
      obtain ⟨x, xs, hx⟩ : ∃ x xs, b.drop 64 = x :: xs := by
        cases hd : b.drop 64 with
        | nil => have := congrArg List.length hd; simp at this; omega
        | cons x xs => exact ⟨x, xs, rfl⟩
      have h1 : (b.take 64).foldl (chunkByte mode) c = fillBlock c (b.take 64) :=
        foldl_chunkByte_fill mode _ c (by simp [hc.2, ht])
      have hl : (fillBlock c (b.take 64)).blockLen.val = 64 := by
        rw [fillBlock_blockLen _ _ (by simp [hc.2, ht]), ht]; simp [hc.2]
      have h2 : (b.drop 64).foldl (chunkByte mode) (fillBlock c (b.take 64)) =
          (b.drop 64).foldl (chunkByte mode) (compressBlock mode (fillBlock c (b.take 64))) := by
        rw [hx, List.foldl_cons, List.foldl_cons]
        have : chunkByte mode (fillBlock c (b.take 64)) x = chunkByte mode (compressBlock mode (fillBlock c (b.take 64))) x := by
          simp [chunkByte, hl, compressBlock]
        rw [this]
      have hbc : (compressBlock mode (fillBlock c (b.take 64))).blocksCompressed.val = c.blocksCompressed.val + 1 := by
        simp only [compressBlock, fillBlock, Fin.ofNat]; omega
      conv_lhs => rw [hsplit, List.foldl_append, h1, h2]
      have hfresh : FreshBlock (compressBlock mode (fillBlock c (b.take 64))) := ⟨rfl, rfl⟩
      have hcap2 : 64 * (compressBlock mode (fillBlock c (b.take 64))).blocksCompressed.val + (b.drop 64).length ≤ 1024 := by
        rw [hbc]; simp; omega
      have hstart : startFlag (compressBlock mode (fillBlock c (b.take 64))) = 0 := by simp [startFlag, hbc]
      have hcv : (compressBlock mode (fillBlock c (b.take 64))).cv =
          first8Words (compressFn c.cv (packBytes (b.take 64)) c.counter 64 (mode ||| startFlag c)) := by
        simp only [compressBlock, blockFlags]
        rw [show (fillBlock c (b.take 64)).buf = writeBytes (Vector.replicate 64 0) 0 (b.take 64) by
          simp [fillBlock, hc.1, hc.2], bufferWords_writeBytes_zero]
        rfl
      have hih := ih (compressBlock mode (fillBlock c (b.take 64))) (b.drop 64) hfresh hcap2 (by simp; omega)
      rw [hih, hstart, hcv]
      simp only [compressBlock, fillBlock]

theorem chunkOutput_eq_chunkOutputOf (key : Cv) (mode : Word) (i : Nat) (b : List Byte) (h : b.length ≤ 1024) :
    chunkOutput mode (b.foldl (chunkByte mode) (chunkInit key (BitVec.ofNat 64 i))) = chunkOutputOf key mode i b := by
  rw [chunkWalk_eq mode 16 _ b ⟨rfl, rfl⟩ (by simp [chunkInit]; omega) (by omega)]; rfl

end Sys2Proof.Machine
end

