-- ==== Sys2Proof/Laws/Words.lean ====
section
/-! SUPPORT. Words as numbers: fields, appended fields, the registers assembled from the state (10 R123, R124), and
bytes in a word (00 R13). -/

namespace Sys2Proof.Machine

/-- Appending is positional notation to base 2^n. -/
theorem toNat_append_eq {m n : Nat} (x : BitVec m) (y : BitVec n) : (x ++ y).toNat = x.toNat * 2 ^ n + y.toNat := by
  rw [BitVec.toNat_append, ← Nat.shiftLeft_add_eq_or_of_lt y.isLt, Nat.shiftLeft_eq]

/-- A field of a word. -/
theorem extractLsb'_toNat_eq {w : Nat} (a : BitVec w) (n k : Nat) :
    (a.extractLsb' n k).toNat = a.toNat / 2 ^ n % 2 ^ k := by
  simp [BitVec.extractLsb'_toNat, Nat.shiftRight_eq_div_pow]

/-- A bit of a word. -/
theorem getLsbD_eq_decide {w : Nat} (a : BitVec w) (n : Nat) : a.getLsbD n = decide (a.toNat / 2 ^ n % 2 = 1) := by
  simp [BitVec.getLsbD, Nat.testBit_eq_decide_div_mod_eq]

/-- STATUS as a number (10 R123). -/
theorem statusWord_toNat (s : State) :
    (statusWord s).toNat =
      s.modeFlags.toNat % 256 * 2 ^ 8 + s.fatal.toNat * 2 ^ 5 + s.outValid.toNat * 2 ^ 4 + s.err.code.toNat := by
  have h : (statusWord s).toNat =
      (0#16 ++ s.modeFlags.extractLsb' 0 8 ++ 0#2 ++ BitVec.ofBool s.fatal ++ BitVec.ofBool s.outValid ++
        s.err.code).toNat := rfl
  simp only [h, toNat_append_eq, BitVec.toNat_ofNat, BitVec.extractLsb'_toNat, BitVec.toNat_ofBool,
    Nat.shiftRight_zero]
  omega

/-- CHUNK_INFO as a number (10 R124). -/
theorem chunkInfoWord_toNat (c : ChunkRegs) :
    (chunkInfoWord c).toNat = chunkLen c * 2 ^ 16 + c.blocksCompressed.val * 2 ^ 8 + c.blockLen.val := by
  have hle := chunkLen_le c
  have h : (chunkInfoWord c).toNat =
      (0#5 ++ BitVec.ofNat 11 (chunkLen c) ++ 0#4 ++ BitVec.ofNat 4 c.blocksCompressed.val ++ 0#1 ++
        BitVec.ofNat 7 c.blockLen.val).toNat := rfl
  simp only [h, toNat_append_eq, BitVec.toNat_ofNat]
  omega

/-- A word from its bytes, as a number (00 R13). -/
theorem leWord_toNat (a b c d : Byte) :
    (leWord a b c d).toNat = d.toNat * 2 ^ 24 + c.toNat * 2 ^ 16 + b.toNat * 2 ^ 8 + a.toNat := by
  have h : (leWord a b c d).toNat = (d ++ c ++ b ++ a).toNat := rfl
  simp only [h, toNat_append_eq]
  omega

/-- The bytes of a word made from bytes (00 R13). -/
theorem wordBytes_leWord (a b c d : Byte) : wordBytes (leWord a b c d) = [a, b, c, d] := by
  have h := leWord_toNat a b c d
  have ha := a.isLt
  have hb := b.isLt
  have hc := c.isLt
  have hd := d.isLt
  simp only [wordBytes, List.cons.injEq, and_true]
  refine ⟨?_, ?_, ?_, ?_⟩ <;> (apply BitVec.eq_of_toNat_eq; rw [extractLsb'_toNat_eq, h]; omega)

end Sys2Proof.Machine
end

