-- ==== Sys2Proof/Laws/Bytes.lean ====
section
/-! SUPPORT. Byte strings laid out as words: the key of SETKEY, the block of LOADIN (30 R308, 20 R204), and the bytes
UPDATE reads back. -/

namespace Sys2Proof.Machine

/-- Word i of a key. -/
@[simp] theorem getElem_packKey (k : Vector Byte 32) (i : Nat) (h : i < 8) :
    (packKey k)[i] = leWord k[4 * i] k[4 * i + 1] k[4 * i + 2] k[4 * i + 3] := by
  simp [packKey]

/-- The bytes of a key's words are the key. -/
theorem leBytes_packKey (k : Vector Byte 32) : leBytes (packKey k).toList = k.toList := by
  have hk : (packKey k).toList =
      (List.finRange 8).map fun i : Fin 8 =>
        leWord k[4 * i.val] k[4 * i.val + 1] k[4 * i.val + 2] k[4 * i.val + 3] := by
    simp [packKey, Vector.toList_ofFn]; rfl
  rw [hk]
  simp only [leBytes, List.flatMap_map, wordBytes_leWord, List.finRange_succ]
  apply List.ext_getElem
  · rw [Vector.length_toList]; rfl
  · intro j h1 h2
    have hj : j < 32 := by rwa [Vector.length_toList] at h2
    rw [Vector.getElem_toList]
    interval_cases j <;> rfl

/-- Byte j of the block of a byte string, zero past its end. -/
theorem leBytes_packBytes_getD (b : List Byte) (j : Nat) (h : j < 64) :
    (leBytes (packBytes b).toList).getD j 0 = b.getD j 0 := by
  have hb : (packBytes b).toList =
      (List.finRange 16).map fun i : Fin 16 =>
        leWord (b.getD (4 * i.val) 0) (b.getD (4 * i.val + 1) 0) (b.getD (4 * i.val + 2) 0)
          (b.getD (4 * i.val + 3) 0) := by
    simp [packBytes, Vector.toList_ofFn]; rfl
  rw [hb]
  simp only [leBytes, List.flatMap_map, wordBytes_leWord, List.finRange_succ]
  interval_cases j <;> rfl

/-- UPDATE reads back the bytes that LOADIN laid out (42 R606). -/
theorem inputBytes_packBytes {b : List Byte} {s : State} (h : b.length ≤ 64) (hs : s.inData = packBytes b) :
    inputBytes b.length s = b := by
  apply List.ext_getElem
  · rw [inputBytes_length _ _ h]
  · intro j _ h2
    have hj := leBytes_packBytes_getD b j (by omega)
    have hl : j < (leBytes (packBytes b).toList).length := by
      rw [leBytes_length, Vector.length_toList]; omega
    simp only [inputBytes, hs, List.getElem_take]
    simpa [List.getD, List.getElem?_eq_getElem hl, List.getElem?_eq_getElem h2] using hj

end Sys2Proof.Machine
end

