-- ==== Sys2Proof/Laws/Exec.lean ====
section
/-! SUPPORT. All that each command can do: one inversion lemma per command. -/

namespace Sys2Proof.Machine

/-- A command that constructs a hasher changes these fields alone (42 R601). -/
theorem hasherInit_frame (key : Cv) (flags : Word) (s : State) :
    hasherInit key flags s =
      { s with
        keyWords := key, modeFlags := flags, chunk := chunkInit key 0, cvStackLen := 0, outValid := false,
        fatal := false } := rfl

theorem execInit_cases {s t : State} (h : execInit s = .next t) : t = setErr .ok (hasherInit iv 0x00 s) := by
  cases h; rfl

theorem execInitKeyed_cases {len : Nat} {s t : State} (h : execInitKeyed len s = .next t) :
    (len ≠ 32 ∧ t = setErr .invalidKeyLength s) ∨ (len = 32 ∧ t = setErr .ok (hasherInit s.keyIn keyedHash s)) := by
  unfold execInitKeyed at h
  split at h
  · rename_i hl; cases h; exact .inl ⟨hl, rfl⟩
  · rename_i hl; cases h; exact .inr ⟨not_not.mp hl, rfl⟩

theorem execInitDerive_cases {s t : State} (h : execInitDerive s = .next t) :
    t = setErr .ok (hasherInit iv deriveKeyContext s) := by
  cases h; rfl

theorem execDeriveCommit_cases {s t : State} (h : execDeriveCommit s = .next t) :
    (s.fatal = true ∧ t = setErr .fatalState s) ∨
    (s.fatal = false ∧ s.modeFlags ≠ deriveKeyContext ∧ t = setErr .sequenceError s) ∨
    (s.fatal = false ∧ s.modeFlags = deriveKeyContext ∧
      t = setErr .ok (hasherInit (first8Words (rootBlock (rootOutput s) 0)) deriveKeyMaterial s)) := by
  unfold execDeriveCommit at h
  split at h
  · rename_i hf; cases h; exact .inl ⟨hf, rfl⟩
  · rename_i hf
    have hf : s.fatal = false := by simpa using hf
    split at h
    · rename_i hm; cases h; exact .inr (.inl ⟨hf, hm, rfl⟩)
    · rename_i hm; cases h; exact .inr (.inr ⟨hf, not_not.mp hm, rfl⟩)

theorem execUpdate_cases {len : Nat} {s t : State} (h : execUpdate len s = .next t) :
    (s.fatal = true ∧ t = setErr .fatalState s) ∨
    (s.fatal = false ∧ 64 < len ∧ t = setErr .badLength s) ∨
    (s.fatal = false ∧ len ≤ 64 ∧ ∃ u, treeUpdate (inputBytes len s) s = .ok u ∧ t = setErr .ok u) ∨
    (s.fatal = false ∧ len ≤ 64 ∧ treeUpdate (inputBytes len s) s = .error .overflow ∧ t = stackOverflow s) := by
  unfold execUpdate at h
  split at h
  · rename_i hf; cases h; exact .inl ⟨hf, rfl⟩
  · rename_i hf
    have hf : s.fatal = false := by simpa using hf
    split at h
    · rename_i hl; cases h; exact .inr (.inl ⟨hf, hl, rfl⟩)
    · rename_i hl
      have hl : len ≤ 64 := Nat.le_of_not_lt hl
      split at h
      · rename_i u hu; cases h; exact .inr (.inr (.inl ⟨hf, hl, u, hu, rfl⟩))
      · rename_i hu; cases h; exact .inr (.inr (.inr ⟨hf, hl, hu, rfl⟩))
      · cases h

theorem execFinalize_cases {s t : State} (h : execFinalize s = .next t) :
    (s.fatal = true ∧ t = setErr .fatalState s) ∨
    (s.fatal = false ∧
      t = setErr .ok
        { latchOutput (rootOutput s) s with outData := rootBlock (rootOutput s) 0, xofCtr := 1, outValid := true }) := by
  unfold execFinalize at h
  split at h
  · rename_i hf; cases h; exact .inl ⟨hf, rfl⟩
  · rename_i hf; cases h; exact .inr ⟨by simpa using hf, rfl⟩

theorem execSqueeze_cases {s t : State} (h : execSqueeze s = .next t) :
    (s.fatal = true ∧ t = setErr .fatalState s) ∨
    (s.fatal = false ∧ s.outValid = false ∧ t = setErr .sequenceError s) ∨
    (s.fatal = false ∧ s.outValid = true ∧
      t = setErr .ok { s with outData := rootBlock (latchedOutput s) s.xofCtr, xofCtr := s.xofCtr + 1 }) := by
  unfold execSqueeze at h
  split at h
  · rename_i hf; cases h; exact .inl ⟨hf, rfl⟩
  · rename_i hf
    have hf : s.fatal = false := by simpa using hf
    split at h
    · rename_i hv; cases h; exact .inr (.inr ⟨hf, hv, rfl⟩)
    · rename_i hv; cases h; exact .inr (.inl ⟨hf, by simpa using hv, rfl⟩)

theorem execCompress_cases {s t : State} (h : execCompress s = .next t) :
    t = setErr .ok
      { s with cmpOut := compressFn s.cmpCv s.cmpM (compressCounter s) s.cmpBlen s.cmpFlags } := by
  cases h; rfl

/-- No command is refused, and only UPDATE can end in the model's fault. -/
theorem exec_stops (i : Instr) (s : State) :
    (∃ t, exec i s = .next t) ∨ (∃ len, i = .update len ∧ exec i s = .fault .cvStackUnderflow) := by
  cases i with
  | init => exact .inl ⟨_, rfl⟩
  | initKeyed len => simp only [exec, execInitKeyed]; split <;> exact .inl ⟨_, rfl⟩
  | initDerive => exact .inl ⟨_, rfl⟩
  | deriveCommit => simp only [exec, execDeriveCommit]; (repeat' split) <;> exact .inl ⟨_, rfl⟩
  | update len =>
    simp only [exec, execUpdate]
    split
    · exact .inl ⟨_, rfl⟩
    · split
      · exact .inl ⟨_, rfl⟩
      · split
        · exact .inl ⟨_, rfl⟩
        · exact .inl ⟨_, rfl⟩
        · exact .inr ⟨len, rfl, rfl⟩
  | finalize => simp only [exec, execFinalize]; split <;> exact .inl ⟨_, rfl⟩
  | squeeze => simp only [exec, execSqueeze]; (repeat' split) <;> exact .inl ⟨_, rfl⟩
  | compress => exact .inl ⟨_, rfl⟩

end Sys2Proof.Machine
end

