-- ==== Sys2Proof/Laws/PerInstr.lean ====
section
/-! SUPPORT. Facts about every command as syntax, one lemma per constructor of Instr. -/

namespace Sys2Proof.Laws.TableRow

/-- The encoding of a well-formed command matches its row of spec/opcode_table.json, and its row of opcode (30 R302,
R307). -/
def Statement (i : Instr) : Prop :=
  i.wf = true → encode i &&& tableMask i = tableMatch i ∧ (encode i).toNat % 256 = opcode i

theorem init : Statement .init := fun _ => by decide
theorem initKeyed (len : Nat) : Statement (.initKeyed len) := by
  intro h
  have hl : len < 256 := of_decide_eq_true h
  have key : ∀ n : Fin 256, encode (.initKeyed n.val) &&& tableMask (.initKeyed n.val) = tableMatch (.initKeyed n.val) ∧
      (encode (.initKeyed n.val)).toNat % 256 = opcode (.initKeyed n.val) := by decide +kernel
  exact key ⟨len, hl⟩
theorem initDerive : Statement .initDerive := fun _ => by decide
theorem deriveCommit : Statement .deriveCommit := fun _ => by decide
theorem update (len : Nat) : Statement (.update len) := by
  intro h
  have hl : len < 256 := of_decide_eq_true h
  have key : ∀ n : Fin 256, encode (.update n.val) &&& tableMask (.update n.val) = tableMatch (.update n.val) ∧
      (encode (.update n.val)).toNat % 256 = opcode (.update n.val) := by decide +kernel
  exact key ⟨len, hl⟩
theorem finalize : Statement .finalize := fun _ => by decide
theorem squeeze : Statement .squeeze := fun _ => by decide
theorem compress : Statement .compress := fun _ => by decide

end Sys2Proof.Laws.TableRow
end

