-- ==== Sys2Proof/Laws/Step.lean ====
section
/-! SUPPORT. All that a step can do. -/

namespace Sys2Proof.Machine

/-- What taking one event off the queue can come to, in a step that answers a next state: a command, an illegal word,
a stored write, a read, a reset (20 R208; 30 R301; 70 R900). `s` is the state with the event taken off. -/
inductive EventEffect (e : HostEvent) (s t : State) : Prop where
  | command (i : Instr) (hf : performEvent e s = .command i s) (h : exec i s = .next t)
  | illegal (bits : Nat) (addr : HostAddr) (w : Word) (he : e = .write bits addr w) (err : DecodeError)
      (hd : decode w = .error err) (h : t = setErr .illegalCommand s)
  | store (bits : Nat) (addr : HostAddr) (r : WindowReg) (v : Word) (he : e = .write bits addr v) (hr : r ≠ .cmd)
      (hl : locate bits addr = .ok r) (h : t = writeReg r v s)
  | load (bits : Nat) (addr : HostAddr) (r : WindowReg) (he : e = .read bits addr)
      (hl : locate bits addr = .ok r) (h : t = hostRead r s)
  | reset (he : e = .reset) (h : t = platformReset s)

/-- The one inversion lemma of the step. -/
theorem step_cases {s t : State} (h : step s = .next t) :
    (s.hostQueue = [] ∧ t = s) ∨
    ∃ e rest, s.hostQueue = e :: rest ∧ fetch s = performEvent e { s with hostQueue := rest } ∧
      EventEffect e { s with hostQueue := rest } t := by
  unfold step at h
  cases hq : s.hostQueue with
  | nil => simp only [fetch, hq] at h; cases h; exact .inl ⟨rfl, rfl⟩
  | cons e rest =>
    have hf : fetch s = performEvent e { s with hostQueue := rest } := by simp only [fetch, hq]
    refine .inr ⟨e, rest, rfl, hf, ?_⟩
    rw [hf] at h
    generalize ({ s with hostQueue := rest } : State) = u at h
    cases e with
    | reset => cases h; exact .reset rfl rfl
    | read bits addr =>
      cases hl : locate bits addr with
      | error r => simp only [performEvent, hl] at h; cases h
      | ok r => simp only [performEvent, hl] at h; cases h; exact .load bits addr r rfl hl rfl
    | write bits addr v =>
      cases hl : locate bits addr with
      | error r => simp only [performEvent, hl] at h; cases h
      | ok r =>
        by_cases hr : r = .cmd
        · subst hr
          cases hd : decode v with
          | error err =>
            simp only [performEvent, hl, hostWrite, writeCmd, hd] at h; cases h
            exact .illegal bits addr v rfl err hd rfl
          | ok i =>
            have hp : performEvent (.write bits addr v) u = .command i u := by
              simp only [performEvent, hl, hostWrite, writeCmd, hd]
            rw [hp] at h
            exact .command i hp h
        · have hp : performEvent (.write bits addr v) u = .access (.next (writeReg r v u)) := by
            simp only [performEvent, hl]
            cases r <;> first | rfl | exact absurd rfl hr
          rw [hp] at h; cases h
          exact .store bits addr r v rfl hr hl rfl

end Sys2Proof.Machine
end

