-- ==== Sys2Proof/Laws/Port.lean ====
section
/-! SUPPORT. The host's port: where an access goes, and what a command leaves of the host's two lists. -/

namespace Sys2Proof.Machine

/-- The register at word k of the window has the offset 4 k (20 R201). -/
theorem regOffset_regOfWord : ∀ k : Fin 128, regOffset (regOfWord k) = 4 * k.val := by decide +kernel

/-- An access at a register's offset reaches that register (20 R201). -/
theorem locate_regOffset (r : WindowReg) : locate 32 (.window (regOffset r)) = .ok r := by
  have h : regOffset r < 0x200 ∧ regOffset r % 4 = 0 ∧ regOfWord (Fin.ofNat 128 (regOffset r / 4)) = r := by
    cases r with
    | keyIn i => revert i; decide +kernel
    | inData i => revert i; decide +kernel
    | outData i => revert i; decide +kernel
    | cmpCv i => revert i; decide +kernel
    | cmpM i => revert i; decide +kernel
    | cmpOut i => revert i; decide +kernel
    | reserved i => revert i; decide +kernel
    | _ => decide +kernel
  simp only [locate, windowOffset, h.1, if_true, h.2.1, ne_eq, not_true_eq_false, if_false, h.2.2]

/-- A step whose event is done in the access itself. -/
theorem step_of_access {s : State} {e : HostEvent} {rest : List HostEvent} {o : Answer} (hq : s.hostQueue = e :: rest)
    (hp : performEvent e { s with hostQueue := rest } = .access o) : step s = o := by
  simp only [step, fetch, hq, hp]

/-- No command touches the host's two lists. -/
theorem exec_keeps_host_lists (i : Instr) {s t : State} (h : exec i s = .next t) :
    t.hostQueue = s.hostQueue ∧ t.hostReads = s.hostReads := by
  cases i with
  | init => cases execInit_cases h; exact ⟨rfl, rfl⟩
  | initKeyed len => obtain ⟨_, rfl⟩ | ⟨_, rfl⟩ := execInitKeyed_cases h <;> exact ⟨rfl, rfl⟩
  | initDerive => cases execInitDerive_cases h; exact ⟨rfl, rfl⟩
  | deriveCommit => obtain ⟨_, rfl⟩ | ⟨_, _, rfl⟩ | ⟨_, _, rfl⟩ := execDeriveCommit_cases h <;> exact ⟨rfl, rfl⟩
  | update len =>
    obtain ⟨_, rfl⟩ | ⟨_, _, rfl⟩ | ⟨_, _, u, hu, rfl⟩ | ⟨_, _, _, rfl⟩ := execUpdate_cases h
    · exact ⟨rfl, rfl⟩
    · exact ⟨rfl, rfl⟩
    · rw [treeUpdate_frame hu]; exact ⟨rfl, rfl⟩
    · exact ⟨rfl, rfl⟩
  | finalize => obtain ⟨_, rfl⟩ | ⟨_, rfl⟩ := execFinalize_cases h <;> exact ⟨rfl, rfl⟩
  | squeeze => obtain ⟨_, rfl⟩ | ⟨_, _, rfl⟩ | ⟨_, _, rfl⟩ := execSqueeze_cases h <;> exact ⟨rfl, rfl⟩
  | compress => cases execCompress_cases h; exact ⟨rfl, rfl⟩

end Sys2Proof.Machine
end

