-- ==== Sys2Proof/Laws/State.lean ====
section
/-! SUPPORT. One lemma per field of State for every named update of it, each true by `rfl`. -/

namespace Sys2Proof.Machine

/-! `STATUS.ERR <- e` (60 R801). -/

@[simp] theorem setErr_modeFlags (e : ErrCode) (s : State) : (setErr e s).modeFlags = s.modeFlags := rfl
@[simp] theorem setErr_keyWords (e : ErrCode) (s : State) : (setErr e s).keyWords = s.keyWords := rfl
@[simp] theorem setErr_cvStack (e : ErrCode) (s : State) : (setErr e s).cvStack = s.cvStack := rfl
@[simp] theorem setErr_cvStackLen (e : ErrCode) (s : State) : (setErr e s).cvStackLen = s.cvStackLen := rfl
@[simp] theorem setErr_chunk (e : ErrCode) (s : State) : (setErr e s).chunk = s.chunk := rfl
@[simp] theorem setErr_outCv (e : ErrCode) (s : State) : (setErr e s).outCv = s.outCv := rfl
@[simp] theorem setErr_outBlock (e : ErrCode) (s : State) : (setErr e s).outBlock = s.outBlock := rfl
@[simp] theorem setErr_outBlen (e : ErrCode) (s : State) : (setErr e s).outBlen = s.outBlen := rfl
@[simp] theorem setErr_outFlags (e : ErrCode) (s : State) : (setErr e s).outFlags = s.outFlags := rfl
@[simp] theorem setErr_outValid (e : ErrCode) (s : State) : (setErr e s).outValid = s.outValid := rfl
@[simp] theorem setErr_xofCtr (e : ErrCode) (s : State) : (setErr e s).xofCtr = s.xofCtr := rfl
@[simp] theorem setErr_err (e : ErrCode) (s : State) : (setErr e s).err = e := rfl
@[simp] theorem setErr_fatal (e : ErrCode) (s : State) : (setErr e s).fatal = s.fatal := rfl
@[simp] theorem setErr_keyIn (e : ErrCode) (s : State) : (setErr e s).keyIn = s.keyIn := rfl
@[simp] theorem setErr_inData (e : ErrCode) (s : State) : (setErr e s).inData = s.inData := rfl
@[simp] theorem setErr_outData (e : ErrCode) (s : State) : (setErr e s).outData = s.outData := rfl
@[simp] theorem setErr_cmpCv (e : ErrCode) (s : State) : (setErr e s).cmpCv = s.cmpCv := rfl
@[simp] theorem setErr_cmpM (e : ErrCode) (s : State) : (setErr e s).cmpM = s.cmpM := rfl
@[simp] theorem setErr_cmpCtrLo (e : ErrCode) (s : State) : (setErr e s).cmpCtrLo = s.cmpCtrLo := rfl
@[simp] theorem setErr_cmpCtrHi (e : ErrCode) (s : State) : (setErr e s).cmpCtrHi = s.cmpCtrHi := rfl
@[simp] theorem setErr_cmpBlen (e : ErrCode) (s : State) : (setErr e s).cmpBlen = s.cmpBlen := rfl
@[simp] theorem setErr_cmpFlags (e : ErrCode) (s : State) : (setErr e s).cmpFlags = s.cmpFlags := rfl
@[simp] theorem setErr_cmpOut (e : ErrCode) (s : State) : (setErr e s).cmpOut = s.cmpOut := rfl
@[simp] theorem setErr_hostQueue (e : ErrCode) (s : State) : (setErr e s).hostQueue = s.hostQueue := rfl
@[simp] theorem setErr_hostReads (e : ErrCode) (s : State) : (setErr e s).hostReads = s.hostReads := rfl
@[simp] theorem setErr_freeCtr (e : ErrCode) (s : State) : (setErr e s).freeCtr = s.freeCtr := rfl

/-! `HasherInit` (42 R601). -/

@[simp] theorem hasherInit_modeFlags (key : Cv) (flags : Word) (s : State) :
    (hasherInit key flags s).modeFlags = flags := rfl
@[simp] theorem hasherInit_keyWords (key : Cv) (flags : Word) (s : State) :
    (hasherInit key flags s).keyWords = key := rfl
@[simp] theorem hasherInit_cvStack (key : Cv) (flags : Word) (s : State) :
    (hasherInit key flags s).cvStack = s.cvStack := rfl
@[simp] theorem hasherInit_cvStackLen (key : Cv) (flags : Word) (s : State) :
    (hasherInit key flags s).cvStackLen = 0 := rfl
@[simp] theorem hasherInit_chunk (key : Cv) (flags : Word) (s : State) :
    (hasherInit key flags s).chunk = chunkInit key 0 := rfl
@[simp] theorem hasherInit_outCv (key : Cv) (flags : Word) (s : State) :
    (hasherInit key flags s).outCv = s.outCv := rfl
@[simp] theorem hasherInit_outBlock (key : Cv) (flags : Word) (s : State) :
    (hasherInit key flags s).outBlock = s.outBlock := rfl
@[simp] theorem hasherInit_outBlen (key : Cv) (flags : Word) (s : State) :
    (hasherInit key flags s).outBlen = s.outBlen := rfl
@[simp] theorem hasherInit_outFlags (key : Cv) (flags : Word) (s : State) :
    (hasherInit key flags s).outFlags = s.outFlags := rfl
@[simp] theorem hasherInit_outValid (key : Cv) (flags : Word) (s : State) :
    (hasherInit key flags s).outValid = false := rfl
@[simp] theorem hasherInit_xofCtr (key : Cv) (flags : Word) (s : State) :
    (hasherInit key flags s).xofCtr = s.xofCtr := rfl
@[simp] theorem hasherInit_err (key : Cv) (flags : Word) (s : State) : (hasherInit key flags s).err = s.err := rfl
@[simp] theorem hasherInit_fatal (key : Cv) (flags : Word) (s : State) : (hasherInit key flags s).fatal = false := rfl
@[simp] theorem hasherInit_keyIn (key : Cv) (flags : Word) (s : State) :
    (hasherInit key flags s).keyIn = s.keyIn := rfl
@[simp] theorem hasherInit_inData (key : Cv) (flags : Word) (s : State) :
    (hasherInit key flags s).inData = s.inData := rfl
@[simp] theorem hasherInit_outData (key : Cv) (flags : Word) (s : State) :
    (hasherInit key flags s).outData = s.outData := rfl
@[simp] theorem hasherInit_cmpCv (key : Cv) (flags : Word) (s : State) :
    (hasherInit key flags s).cmpCv = s.cmpCv := rfl
@[simp] theorem hasherInit_cmpM (key : Cv) (flags : Word) (s : State) : (hasherInit key flags s).cmpM = s.cmpM := rfl
@[simp] theorem hasherInit_cmpCtrLo (key : Cv) (flags : Word) (s : State) :
    (hasherInit key flags s).cmpCtrLo = s.cmpCtrLo := rfl
@[simp] theorem hasherInit_cmpCtrHi (key : Cv) (flags : Word) (s : State) :
    (hasherInit key flags s).cmpCtrHi = s.cmpCtrHi := rfl
@[simp] theorem hasherInit_cmpBlen (key : Cv) (flags : Word) (s : State) :
    (hasherInit key flags s).cmpBlen = s.cmpBlen := rfl
@[simp] theorem hasherInit_cmpFlags (key : Cv) (flags : Word) (s : State) :
    (hasherInit key flags s).cmpFlags = s.cmpFlags := rfl
@[simp] theorem hasherInit_cmpOut (key : Cv) (flags : Word) (s : State) :
    (hasherInit key flags s).cmpOut = s.cmpOut := rfl
@[simp] theorem hasherInit_hostQueue (key : Cv) (flags : Word) (s : State) :
    (hasherInit key flags s).hostQueue = s.hostQueue := rfl
@[simp] theorem hasherInit_hostReads (key : Cv) (flags : Word) (s : State) :
    (hasherInit key flags s).hostReads = s.hostReads := rfl
@[simp] theorem hasherInit_freeCtr (key : Cv) (flags : Word) (s : State) :
    (hasherInit key flags s).freeCtr = s.freeCtr := rfl

/-! STACK_OVERFLOW (42 R612). -/

@[simp] theorem stackOverflow_modeFlags (s : State) : (stackOverflow s).modeFlags = s.modeFlags := rfl
@[simp] theorem stackOverflow_keyWords (s : State) : (stackOverflow s).keyWords = s.keyWords := rfl
@[simp] theorem stackOverflow_cvStack (s : State) : (stackOverflow s).cvStack = Config.freeCvStack s.freeCtr := rfl
@[simp] theorem stackOverflow_cvStackLen (s : State) :
    (stackOverflow s).cvStackLen = Config.freeCvStackLen s.freeCtr := rfl
@[simp] theorem stackOverflow_chunk (s : State) :
    (stackOverflow s).chunk = ⟨Config.freeChunkCv s.freeCtr, Config.freeBlockBuf s.freeCtr, Config.freeBlockLen s.freeCtr,
        Config.freeBlocksCompressed s.freeCtr, Config.freeChunkCounter s.freeCtr⟩ := rfl
@[simp] theorem stackOverflow_outCv (s : State) : (stackOverflow s).outCv = s.outCv := rfl
@[simp] theorem stackOverflow_outBlock (s : State) : (stackOverflow s).outBlock = s.outBlock := rfl
@[simp] theorem stackOverflow_outBlen (s : State) : (stackOverflow s).outBlen = s.outBlen := rfl
@[simp] theorem stackOverflow_outFlags (s : State) : (stackOverflow s).outFlags = s.outFlags := rfl
@[simp] theorem stackOverflow_outValid (s : State) : (stackOverflow s).outValid = s.outValid := rfl
@[simp] theorem stackOverflow_xofCtr (s : State) : (stackOverflow s).xofCtr = s.xofCtr := rfl
@[simp] theorem stackOverflow_err (s : State) : (stackOverflow s).err = .stackOverflow := rfl
@[simp] theorem stackOverflow_fatal (s : State) : (stackOverflow s).fatal = true := rfl
@[simp] theorem stackOverflow_keyIn (s : State) : (stackOverflow s).keyIn = s.keyIn := rfl
@[simp] theorem stackOverflow_inData (s : State) : (stackOverflow s).inData = s.inData := rfl
@[simp] theorem stackOverflow_outData (s : State) : (stackOverflow s).outData = s.outData := rfl
@[simp] theorem stackOverflow_cmpCv (s : State) : (stackOverflow s).cmpCv = s.cmpCv := rfl
@[simp] theorem stackOverflow_cmpM (s : State) : (stackOverflow s).cmpM = s.cmpM := rfl
@[simp] theorem stackOverflow_cmpCtrLo (s : State) : (stackOverflow s).cmpCtrLo = s.cmpCtrLo := rfl
@[simp] theorem stackOverflow_cmpCtrHi (s : State) : (stackOverflow s).cmpCtrHi = s.cmpCtrHi := rfl
@[simp] theorem stackOverflow_cmpBlen (s : State) : (stackOverflow s).cmpBlen = s.cmpBlen := rfl
@[simp] theorem stackOverflow_cmpFlags (s : State) : (stackOverflow s).cmpFlags = s.cmpFlags := rfl
@[simp] theorem stackOverflow_cmpOut (s : State) : (stackOverflow s).cmpOut = s.cmpOut := rfl
@[simp] theorem stackOverflow_hostQueue (s : State) : (stackOverflow s).hostQueue = s.hostQueue := rfl
@[simp] theorem stackOverflow_hostReads (s : State) : (stackOverflow s).hostReads = s.hostReads := rfl
@[simp] theorem stackOverflow_freeCtr (s : State) : (stackOverflow s).freeCtr = s.freeCtr + 1 := rfl

/-! Latching an Output (43 R705). -/

@[simp] theorem latchOutput_modeFlags (o : Output) (s : State) : (latchOutput o s).modeFlags = s.modeFlags := rfl
@[simp] theorem latchOutput_keyWords (o : Output) (s : State) : (latchOutput o s).keyWords = s.keyWords := rfl
@[simp] theorem latchOutput_cvStack (o : Output) (s : State) : (latchOutput o s).cvStack = s.cvStack := rfl
@[simp] theorem latchOutput_cvStackLen (o : Output) (s : State) : (latchOutput o s).cvStackLen = s.cvStackLen := rfl
@[simp] theorem latchOutput_chunk (o : Output) (s : State) : (latchOutput o s).chunk = s.chunk := rfl
@[simp] theorem latchOutput_outCv (o : Output) (s : State) : (latchOutput o s).outCv = o.cv := rfl
@[simp] theorem latchOutput_outBlock (o : Output) (s : State) : (latchOutput o s).outBlock = o.block := rfl
@[simp] theorem latchOutput_outBlen (o : Output) (s : State) : (latchOutput o s).outBlen = o.blockLen := rfl
@[simp] theorem latchOutput_outFlags (o : Output) (s : State) : (latchOutput o s).outFlags = o.flags := rfl
@[simp] theorem latchOutput_outValid (o : Output) (s : State) : (latchOutput o s).outValid = s.outValid := rfl
@[simp] theorem latchOutput_xofCtr (o : Output) (s : State) : (latchOutput o s).xofCtr = s.xofCtr := rfl
@[simp] theorem latchOutput_err (o : Output) (s : State) : (latchOutput o s).err = s.err := rfl
@[simp] theorem latchOutput_fatal (o : Output) (s : State) : (latchOutput o s).fatal = s.fatal := rfl
@[simp] theorem latchOutput_keyIn (o : Output) (s : State) : (latchOutput o s).keyIn = s.keyIn := rfl
@[simp] theorem latchOutput_inData (o : Output) (s : State) : (latchOutput o s).inData = s.inData := rfl
@[simp] theorem latchOutput_outData (o : Output) (s : State) : (latchOutput o s).outData = s.outData := rfl
@[simp] theorem latchOutput_cmpCv (o : Output) (s : State) : (latchOutput o s).cmpCv = s.cmpCv := rfl
@[simp] theorem latchOutput_cmpM (o : Output) (s : State) : (latchOutput o s).cmpM = s.cmpM := rfl
@[simp] theorem latchOutput_cmpCtrLo (o : Output) (s : State) : (latchOutput o s).cmpCtrLo = s.cmpCtrLo := rfl
@[simp] theorem latchOutput_cmpCtrHi (o : Output) (s : State) : (latchOutput o s).cmpCtrHi = s.cmpCtrHi := rfl
@[simp] theorem latchOutput_cmpBlen (o : Output) (s : State) : (latchOutput o s).cmpBlen = s.cmpBlen := rfl
@[simp] theorem latchOutput_cmpFlags (o : Output) (s : State) : (latchOutput o s).cmpFlags = s.cmpFlags := rfl
@[simp] theorem latchOutput_cmpOut (o : Output) (s : State) : (latchOutput o s).cmpOut = s.cmpOut := rfl
@[simp] theorem latchOutput_hostQueue (o : Output) (s : State) : (latchOutput o s).hostQueue = s.hostQueue := rfl
@[simp] theorem latchOutput_hostReads (o : Output) (s : State) : (latchOutput o s).hostReads = s.hostReads := rfl
@[simp] theorem latchOutput_freeCtr (o : Output) (s : State) : (latchOutput o s).freeCtr = s.freeCtr := rfl

/-! The platform's reset (70 R900). -/

@[simp] theorem platformReset_modeFlags (s : State) : (platformReset s).modeFlags = State.reset.modeFlags := rfl
@[simp] theorem platformReset_keyWords (s : State) : (platformReset s).keyWords = State.reset.keyWords := rfl
@[simp] theorem platformReset_cvStack (s : State) : (platformReset s).cvStack = State.reset.cvStack := rfl
@[simp] theorem platformReset_cvStackLen (s : State) : (platformReset s).cvStackLen = State.reset.cvStackLen := rfl
@[simp] theorem platformReset_chunk (s : State) : (platformReset s).chunk = State.reset.chunk := rfl
@[simp] theorem platformReset_outCv (s : State) : (platformReset s).outCv = State.reset.outCv := rfl
@[simp] theorem platformReset_outBlock (s : State) : (platformReset s).outBlock = State.reset.outBlock := rfl
@[simp] theorem platformReset_outBlen (s : State) : (platformReset s).outBlen = State.reset.outBlen := rfl
@[simp] theorem platformReset_outFlags (s : State) : (platformReset s).outFlags = State.reset.outFlags := rfl
@[simp] theorem platformReset_outValid (s : State) : (platformReset s).outValid = State.reset.outValid := rfl
@[simp] theorem platformReset_xofCtr (s : State) : (platformReset s).xofCtr = State.reset.xofCtr := rfl
@[simp] theorem platformReset_err (s : State) : (platformReset s).err = State.reset.err := rfl
@[simp] theorem platformReset_fatal (s : State) : (platformReset s).fatal = State.reset.fatal := rfl
@[simp] theorem platformReset_keyIn (s : State) : (platformReset s).keyIn = State.reset.keyIn := rfl
@[simp] theorem platformReset_inData (s : State) : (platformReset s).inData = State.reset.inData := rfl
@[simp] theorem platformReset_outData (s : State) : (platformReset s).outData = State.reset.outData := rfl
@[simp] theorem platformReset_cmpCv (s : State) : (platformReset s).cmpCv = State.reset.cmpCv := rfl
@[simp] theorem platformReset_cmpM (s : State) : (platformReset s).cmpM = State.reset.cmpM := rfl
@[simp] theorem platformReset_cmpCtrLo (s : State) : (platformReset s).cmpCtrLo = State.reset.cmpCtrLo := rfl
@[simp] theorem platformReset_cmpCtrHi (s : State) : (platformReset s).cmpCtrHi = State.reset.cmpCtrHi := rfl
@[simp] theorem platformReset_cmpBlen (s : State) : (platformReset s).cmpBlen = State.reset.cmpBlen := rfl
@[simp] theorem platformReset_cmpFlags (s : State) : (platformReset s).cmpFlags = State.reset.cmpFlags := rfl
@[simp] theorem platformReset_cmpOut (s : State) : (platformReset s).cmpOut = State.reset.cmpOut := rfl
@[simp] theorem platformReset_hostQueue (s : State) : (platformReset s).hostQueue = s.hostQueue := rfl
@[simp] theorem platformReset_hostReads (s : State) : (platformReset s).hostReads = s.hostReads := rfl
@[simp] theorem platformReset_freeCtr (s : State) : (platformReset s).freeCtr = s.freeCtr := rfl

/-! A host read (20 R208). -/

@[simp] theorem hostRead_modeFlags (r : WindowReg) (s : State) : (hostRead r s).modeFlags = s.modeFlags := rfl
@[simp] theorem hostRead_keyWords (r : WindowReg) (s : State) : (hostRead r s).keyWords = s.keyWords := rfl
@[simp] theorem hostRead_cvStack (r : WindowReg) (s : State) : (hostRead r s).cvStack = s.cvStack := rfl
@[simp] theorem hostRead_cvStackLen (r : WindowReg) (s : State) : (hostRead r s).cvStackLen = s.cvStackLen := rfl
@[simp] theorem hostRead_chunk (r : WindowReg) (s : State) : (hostRead r s).chunk = s.chunk := rfl
@[simp] theorem hostRead_outCv (r : WindowReg) (s : State) : (hostRead r s).outCv = s.outCv := rfl
@[simp] theorem hostRead_outBlock (r : WindowReg) (s : State) : (hostRead r s).outBlock = s.outBlock := rfl
@[simp] theorem hostRead_outBlen (r : WindowReg) (s : State) : (hostRead r s).outBlen = s.outBlen := rfl
@[simp] theorem hostRead_outFlags (r : WindowReg) (s : State) : (hostRead r s).outFlags = s.outFlags := rfl
@[simp] theorem hostRead_outValid (r : WindowReg) (s : State) : (hostRead r s).outValid = s.outValid := rfl
@[simp] theorem hostRead_xofCtr (r : WindowReg) (s : State) : (hostRead r s).xofCtr = s.xofCtr := rfl
@[simp] theorem hostRead_err (r : WindowReg) (s : State) : (hostRead r s).err = s.err := rfl
@[simp] theorem hostRead_fatal (r : WindowReg) (s : State) : (hostRead r s).fatal = s.fatal := rfl
@[simp] theorem hostRead_keyIn (r : WindowReg) (s : State) : (hostRead r s).keyIn = s.keyIn := rfl
@[simp] theorem hostRead_inData (r : WindowReg) (s : State) : (hostRead r s).inData = s.inData := rfl
@[simp] theorem hostRead_outData (r : WindowReg) (s : State) : (hostRead r s).outData = s.outData := rfl
@[simp] theorem hostRead_cmpCv (r : WindowReg) (s : State) : (hostRead r s).cmpCv = s.cmpCv := rfl
@[simp] theorem hostRead_cmpM (r : WindowReg) (s : State) : (hostRead r s).cmpM = s.cmpM := rfl
@[simp] theorem hostRead_cmpCtrLo (r : WindowReg) (s : State) : (hostRead r s).cmpCtrLo = s.cmpCtrLo := rfl
@[simp] theorem hostRead_cmpCtrHi (r : WindowReg) (s : State) : (hostRead r s).cmpCtrHi = s.cmpCtrHi := rfl
@[simp] theorem hostRead_cmpBlen (r : WindowReg) (s : State) : (hostRead r s).cmpBlen = s.cmpBlen := rfl
@[simp] theorem hostRead_cmpFlags (r : WindowReg) (s : State) : (hostRead r s).cmpFlags = s.cmpFlags := rfl
@[simp] theorem hostRead_cmpOut (r : WindowReg) (s : State) : (hostRead r s).cmpOut = s.cmpOut := rfl
@[simp] theorem hostRead_hostQueue (r : WindowReg) (s : State) : (hostRead r s).hostQueue = s.hostQueue := rfl
@[simp] theorem hostRead_hostReads (r : WindowReg) (s : State) :
    (hostRead r s).hostReads = s.hostReads ++ [readReg r s] := rfl
@[simp] theorem hostRead_freeCtr (r : WindowReg) (s : State) : (hostRead r s).freeCtr = s.freeCtr := rfl

/-! A command word placed for the next step (log 1). -/

@[simp] theorem State.withFetchWord_modeFlags (s : State) (nbits w : Nat) :
    (s.withFetchWord nbits w).modeFlags = s.modeFlags := rfl
@[simp] theorem State.withFetchWord_keyWords (s : State) (nbits w : Nat) :
    (s.withFetchWord nbits w).keyWords = s.keyWords := rfl
@[simp] theorem State.withFetchWord_cvStack (s : State) (nbits w : Nat) :
    (s.withFetchWord nbits w).cvStack = s.cvStack := rfl
@[simp] theorem State.withFetchWord_cvStackLen (s : State) (nbits w : Nat) :
    (s.withFetchWord nbits w).cvStackLen = s.cvStackLen := rfl
@[simp] theorem State.withFetchWord_chunk (s : State) (nbits w : Nat) :
    (s.withFetchWord nbits w).chunk = s.chunk := rfl
@[simp] theorem State.withFetchWord_outCv (s : State) (nbits w : Nat) :
    (s.withFetchWord nbits w).outCv = s.outCv := rfl
@[simp] theorem State.withFetchWord_outBlock (s : State) (nbits w : Nat) :
    (s.withFetchWord nbits w).outBlock = s.outBlock := rfl
@[simp] theorem State.withFetchWord_outBlen (s : State) (nbits w : Nat) :
    (s.withFetchWord nbits w).outBlen = s.outBlen := rfl
@[simp] theorem State.withFetchWord_outFlags (s : State) (nbits w : Nat) :
    (s.withFetchWord nbits w).outFlags = s.outFlags := rfl
@[simp] theorem State.withFetchWord_outValid (s : State) (nbits w : Nat) :
    (s.withFetchWord nbits w).outValid = s.outValid := rfl
@[simp] theorem State.withFetchWord_xofCtr (s : State) (nbits w : Nat) :
    (s.withFetchWord nbits w).xofCtr = s.xofCtr := rfl
@[simp] theorem State.withFetchWord_err (s : State) (nbits w : Nat) : (s.withFetchWord nbits w).err = s.err := rfl
@[simp] theorem State.withFetchWord_fatal (s : State) (nbits w : Nat) :
    (s.withFetchWord nbits w).fatal = s.fatal := rfl
@[simp] theorem State.withFetchWord_keyIn (s : State) (nbits w : Nat) :
    (s.withFetchWord nbits w).keyIn = s.keyIn := rfl
@[simp] theorem State.withFetchWord_inData (s : State) (nbits w : Nat) :
    (s.withFetchWord nbits w).inData = s.inData := rfl
@[simp] theorem State.withFetchWord_outData (s : State) (nbits w : Nat) :
    (s.withFetchWord nbits w).outData = s.outData := rfl
@[simp] theorem State.withFetchWord_cmpCv (s : State) (nbits w : Nat) :
    (s.withFetchWord nbits w).cmpCv = s.cmpCv := rfl
@[simp] theorem State.withFetchWord_cmpM (s : State) (nbits w : Nat) : (s.withFetchWord nbits w).cmpM = s.cmpM := rfl
@[simp] theorem State.withFetchWord_cmpCtrLo (s : State) (nbits w : Nat) :
    (s.withFetchWord nbits w).cmpCtrLo = s.cmpCtrLo := rfl
@[simp] theorem State.withFetchWord_cmpCtrHi (s : State) (nbits w : Nat) :
    (s.withFetchWord nbits w).cmpCtrHi = s.cmpCtrHi := rfl
@[simp] theorem State.withFetchWord_cmpBlen (s : State) (nbits w : Nat) :
    (s.withFetchWord nbits w).cmpBlen = s.cmpBlen := rfl
@[simp] theorem State.withFetchWord_cmpFlags (s : State) (nbits w : Nat) :
    (s.withFetchWord nbits w).cmpFlags = s.cmpFlags := rfl
@[simp] theorem State.withFetchWord_cmpOut (s : State) (nbits w : Nat) :
    (s.withFetchWord nbits w).cmpOut = s.cmpOut := rfl
@[simp] theorem State.withFetchWord_hostQueue (s : State) (nbits w : Nat) : (s.withFetchWord nbits w).hostQueue = 
      .write 32 (.window 0x000) (BitVec.ofNat 32 (w % 2 ^ nbits)) :: s.hostQueue := rfl
@[simp] theorem State.withFetchWord_hostReads (s : State) (nbits w : Nat) :
    (s.withFetchWord nbits w).hostReads = s.hostReads := rfl
@[simp] theorem State.withFetchWord_freeCtr (s : State) (nbits w : Nat) :
    (s.withFetchWord nbits w).freeCtr = s.freeCtr := rfl

/-! What a stored host write leaves unchanged: everything but the host's operand registers (20 R208). -/

@[simp] theorem writeReg_modeFlags (r : WindowReg) (v : Word) (s : State) : (writeReg r v s).modeFlags = s.modeFlags := by
  cases r <;> rfl
@[simp] theorem writeReg_keyWords (r : WindowReg) (v : Word) (s : State) : (writeReg r v s).keyWords = s.keyWords := by
  cases r <;> rfl
@[simp] theorem writeReg_cvStack (r : WindowReg) (v : Word) (s : State) : (writeReg r v s).cvStack = s.cvStack := by
  cases r <;> rfl
@[simp] theorem writeReg_cvStackLen (r : WindowReg) (v : Word) (s : State) : (writeReg r v s).cvStackLen = s.cvStackLen := by
  cases r <;> rfl
@[simp] theorem writeReg_chunk (r : WindowReg) (v : Word) (s : State) : (writeReg r v s).chunk = s.chunk := by
  cases r <;> rfl
@[simp] theorem writeReg_outCv (r : WindowReg) (v : Word) (s : State) : (writeReg r v s).outCv = s.outCv := by
  cases r <;> rfl
@[simp] theorem writeReg_outBlock (r : WindowReg) (v : Word) (s : State) : (writeReg r v s).outBlock = s.outBlock := by
  cases r <;> rfl
@[simp] theorem writeReg_outBlen (r : WindowReg) (v : Word) (s : State) : (writeReg r v s).outBlen = s.outBlen := by
  cases r <;> rfl
@[simp] theorem writeReg_outFlags (r : WindowReg) (v : Word) (s : State) : (writeReg r v s).outFlags = s.outFlags := by
  cases r <;> rfl
@[simp] theorem writeReg_outValid (r : WindowReg) (v : Word) (s : State) : (writeReg r v s).outValid = s.outValid := by
  cases r <;> rfl
@[simp] theorem writeReg_xofCtr (r : WindowReg) (v : Word) (s : State) : (writeReg r v s).xofCtr = s.xofCtr := by
  cases r <;> rfl
@[simp] theorem writeReg_err (r : WindowReg) (v : Word) (s : State) : (writeReg r v s).err = s.err := by
  cases r <;> rfl
@[simp] theorem writeReg_fatal (r : WindowReg) (v : Word) (s : State) : (writeReg r v s).fatal = s.fatal := by
  cases r <;> rfl
@[simp] theorem writeReg_outData (r : WindowReg) (v : Word) (s : State) : (writeReg r v s).outData = s.outData := by
  cases r <;> rfl
@[simp] theorem writeReg_cmpOut (r : WindowReg) (v : Word) (s : State) : (writeReg r v s).cmpOut = s.cmpOut := by
  cases r <;> rfl
@[simp] theorem writeReg_hostQueue (r : WindowReg) (v : Word) (s : State) : (writeReg r v s).hostQueue = s.hostQueue := by
  cases r <;> rfl
@[simp] theorem writeReg_hostReads (r : WindowReg) (v : Word) (s : State) : (writeReg r v s).hostReads = s.hostReads := by
  cases r <;> rfl
@[simp] theorem writeReg_freeCtr (r : WindowReg) (v : Word) (s : State) : (writeReg r v s).freeCtr = s.freeCtr := by
  cases r <;> rfl

end Sys2Proof.Machine
end

