-- ==== Sys2Proof/Laws/Subtrees.lean ====
section
/-! SUPPORT. The merge loop on complete subtrees: what R611 says of it, level by level. -/

namespace Sys2Proof.Machine

/-- The merge loop on the list of the stack's entries, the top first (42 R608). -/
def mergeList (key : Cv) (mode : Word) : List Cv → Cv → Nat → Option (List Cv × Cv)
  | [], cv, n => if n % 2 = 1 then some ([], cv) else none
  | e :: es, cv, n => if n % 2 = 1 then some (e :: es, cv) else mergeList key mode es (parentCv key mode e cv) (n / 2)

theorem mergeList_odd (key : Cv) (mode : Word) (es : List Cv) (cv : Cv) (n : Nat) (h : n % 2 = 1) :
    mergeList key mode es cv n = some (es, cv) := by cases es <;> simp [mergeList, h]

theorem take_succ_reverse (stack : Vector Cv 54) (len : Nat) (h : len < 54) :
    (stack.toList.take (len + 1)).reverse = stack[len] :: (stack.toList.take len).reverse := by
  rw [List.take_add_one]
  simp [h]

theorem mergeSubtrees_eq_mergeList (key : Cv) (mode : Word) (stack : Vector Cv 54) (len : Nat) (h : len ≤ 54)
    (cv : Cv) (n : U64) :
    mergeList key mode (stack.toList.take len).reverse cv n.toNat =
      (mergeSubtrees key mode stack len h cv n).map fun r => ((stack.toList.take r.1.val).reverse, r.2) := by
  induction len generalizing cv n with
  | zero =>
    simp only [List.take_zero, List.reverse_nil, mergeList, mergeSubtrees, getLsbD_zero_eq_decide]
    by_cases hn : n.toNat % 2 = 1 <;> simp [hn]
  | succ len ih =>
    rw [take_succ_reverse _ _ (by omega)]
    simp only [mergeList, mergeSubtrees, getLsbD_zero_eq_decide]
    by_cases hn : n.toNat % 2 = 1
    · simp [hn, take_succ_reverse stack len (by omega)]
    · have hs : (n >>> 1).toNat = n.toNat / 2 := by simp [BitVec.toNat_ushiftRight, Nat.shiftRight_eq_div_pow]
      simp only [hn, if_false, decide_false, Bool.false_eq_true]
      rw [← hs]; exact ih _ _ _

theorem subtrees_nil (key : Cv) (mode : Word) (k : Nat) : subtrees key mode k [] = [] := by
  induction k with
  | zero => rfl
  | succ k ih => simp [subtrees, ih]

theorem mergeList_complete (key : Cv) (mode : Word) (k : Nat) : ∀ (cvs rest : List Cv) (cv : Cv) (m : Nat),
    cvs.length + 1 = 2 ^ k →
    mergeList key mode ((subtrees key mode k cvs).reverse ++ rest) cv (2 ^ k * m) =
      mergeList key mode rest (subtreeCv key mode k (cvs ++ [cv])) m := by
  induction k with
  | zero =>
    intro cvs rest cv m h
    have : cvs = [] := by simpa using h
    subst this; simp [subtrees, subtreeCv]
  | succ k ih =>
    intro cvs rest cv m h
    rw [Nat.pow_succ] at h
    have hp : 0 < 2 ^ k := Nat.pos_of_ne_zero (by simp)
    have hle : 2 ^ k ≤ cvs.length := by omega
    have e : 2 ^ (k + 1) * m = 2 ^ k * (2 * m) := by rw [Nat.pow_succ, Nat.mul_assoc]
    rw [subtrees, if_pos hle, List.reverse_cons, List.append_assoc, e,
      ih (cvs.drop (2 ^ k)) _ cv (2 * m) (by simp; omega)]
    simp only [List.cons_append, List.nil_append, mergeList, subtreeCv]
    rw [if_neg (by omega), Nat.mul_div_cancel_left _ (by omega : 0 < 2),
      List.take_append_of_le_length hle, List.drop_append_of_le_length hle]

theorem mergeList_partial (key : Cv) (mode : Word) (k : Nat) : ∀ (cvs rest : List Cv) (cv : Cv) (n : Nat),
    cvs.length + 1 < 2 ^ k → n % 2 ^ k = cvs.length + 1 →
    ∃ es cv', mergeList key mode ((subtrees key mode k cvs).reverse ++ rest) cv n = some (es ++ rest, cv') ∧
      es.reverse ++ [cv'] = subtrees key mode k (cvs ++ [cv]) := by
  induction k with
  | zero => intro cvs rest cv n h; simp at h
  | succ k ih =>
    intro cvs rest cv n h hn
    rw [Nat.pow_succ] at h
    have hm : n % 2 ^ k = (n % 2 ^ (k + 1)) % 2 ^ k := (Nat.mod_mod_of_dvd n (Nat.pow_dvd_pow 2 (Nat.le_succ k))).symm
    rw [hn] at hm
    by_cases hge : 2 ^ k ≤ cvs.length
    · have hd : (cvs.drop (2 ^ k)).length + 1 < 2 ^ k := by simp; omega
      have hmd : n % 2 ^ k = (cvs.drop (2 ^ k)).length + 1 := by
        rw [hm, Nat.mod_eq_sub_mod (by omega), Nat.mod_eq_of_lt (by omega)]; simp; omega
      obtain ⟨es, cv', e1, e2⟩ := ih (cvs.drop (2 ^ k)) (subtreeCv key mode k (cvs.take (2 ^ k)) :: rest) cv n hd hmd
      refine ⟨es ++ [subtreeCv key mode k (cvs.take (2 ^ k))], cv', ?_, ?_⟩
      · rw [subtrees, if_pos hge]; simpa using e1
      · rw [subtrees, if_pos (by simp; omega), List.take_append_of_le_length hge, List.drop_append_of_le_length hge,
          ← e2]; simp
    · rw [subtrees, if_neg hge]
      by_cases hlt : cvs.length + 1 < 2 ^ k
      · obtain ⟨es, cv', e1, e2⟩ := ih cvs rest cv n hlt (by rw [hm, Nat.mod_eq_of_lt hlt])
        exact ⟨es, cv', e1, by rw [subtrees, if_neg (by simp; omega), e2]⟩
      · have heq : cvs.length + 1 = 2 ^ k := by omega
        obtain ⟨q, hq⟩ : ∃ q, n = 2 ^ k * (2 * q + 1) := by
          refine ⟨n / 2 ^ (k + 1), ?_⟩
          have := Nat.div_add_mod n (2 ^ (k + 1))
          rw [hn, heq] at this
          rw [← this, Nat.pow_succ]
          have hp : 0 < 2 ^ k * 2 := by omega
          rw [Nat.mul_add_div hp, Nat.div_eq_of_lt (by omega : 2 ^ k < 2 ^ k * 2)]; ring
        refine ⟨[], subtreeCv key mode k (cvs ++ [cv]), ?_, ?_⟩
        · rw [hq, mergeList_complete key mode k cvs rest cv _ heq, mergeList_odd _ _ _ _ _ (by omega)]; rfl
        · rw [subtrees, if_pos (by simp; omega), List.take_of_length_le (by simp; omega),
            List.drop_of_length_le (by simp; omega), subtrees_nil]; rfl

end Sys2Proof.Machine
end

