-- ==== Sys2Proof/Tests/Slice0.lean ====
section
/-! SUPPORT. The model's own tests, and a witness for the hypotheses of every statement. Expected values come from
95_test_vectors.md (the V-... names) or are read off the rule named. -/

namespace Sys2Proof.Tests

open Sys2Proof.Machine

-- One theorem at a time: theorems that wait for a slow one each hold a thread with its stack.
set_option Elab.async false

/-! Helpers. -/

/-- The answer is a next state that satisfies `p`. -/
def goesTo (o : Answer) (p : State → Bool) : Bool :=
  match o with
  | .next t => p t
  | .fault _ => false
  | .refused _ => false

theorem exists_of_goesTo {o : Answer} {p : State → Bool} (h : goesTo o p = true) : ∃ t, o = .next t ∧ p t = true := by
  cases o with
  | next t => exact ⟨t, rfl, h⟩
  | fault f => cases h
  | refused r => cases h

theorem goesTo_mono {o : Answer} {p q : State → Bool} (h : goesTo o p = true) (hpq : ∀ t, p t = true → q t = true) :
    goesTo o q = true := by
  obtain ⟨t, rfl, ht⟩ := exists_of_goesTo h
  exact hpq t ht

/-- The state after reset with the host's events given. -/
def hostDoes (events : List HostEvent) : State := { State.reset with hostQueue := events }

/-- The host writes the word `w` to CMD in state `s`. -/
def issue (w : Word) (s : State) : Answer := step (s.withFetchWord 32 w.toNat)

/-- STATUS after the step. -/
def statusAfter (o : Answer) (v : Word) : Bool := goesTo o fun t => readReg .status t = v

/-- A reset state whose chunk holds `n` zero bytes in its current block, after `blocks` full ones. -/
def zerosBuffered (n : Fin 65) (blocks : Fin 16) : State :=
  { State.reset with chunk := ⟨iv, Vector.replicate 64 0, n, blocks, 0⟩ }

/-- The state of V-T9, but for the length of the last block: 2^55 − 2 chunks completed, 54 entries. -/
def nearLimit (n : Fin 65) : State :=
  { State.reset with chunk := ⟨iv, Vector.replicate 64 0, n, 15, 0x7FFFFFFFFFFFFE⟩, cvStackLen := 54 }

/-- A state after FINALIZE of the empty input, without its OUT_DATA (43 R705). -/
def afterFinalize : State := { State.reset with outCv := iv, outFlags := 0x03, outValid := true, xofCtr := 1 }

/-- FATAL = 1, placed by construction as in V-X13. -/
def fatalReset : State := { State.reset with fatal := true }

def zeros8 : Cv := Vector.replicate 8 0
def zeros16 : Block := Vector.replicate 16 0
def countUp : Block := #v[0, 1, 2, 3, 4, 5, 6, 7, 8, 9, 10, 11, 12, 13, 14, 15]

/-! Well-formedness: the one check has an ill-formed term for each command it concerns (30 R303). -/

theorem test_wf_refuses_long_update : (Instr.update 256).wf = false := by decide
theorem test_wf_refuses_long_key : (Instr.initKeyed 256).wf = false := by decide
theorem test_wf_allows_error_operands : (Instr.update 255).wf = true ∧ (Instr.initKeyed 31).wf = true := by decide

/-! Decoding, from 30 R300 and R302, and the illegal words V-X1 to V-X7. -/

theorem test_decode_init : decode 0b00000000000000000000000000000001#32 = .ok .init := by decide
theorem test_decode_initKeyed : decode 0b00000000000000000001111100000010#32 = .ok (.initKeyed 31) := by decide
theorem test_decode_initDerive : decode 0b00000000000000000000000000000011#32 = .ok .initDerive := by decide
theorem test_decode_deriveCommit : decode 0b00000000000000000000000000000100#32 = .ok .deriveCommit := by decide
theorem test_decode_update : decode 0b00000000000000000100000100000101#32 = .ok (.update 65) := by decide
theorem test_decode_finalize : decode 0b00000000000000000000000000000110#32 = .ok .finalize := by decide
theorem test_decode_squeeze : decode 0b00000000000000000000000000000111#32 = .ok .squeeze := by decide
theorem test_decode_compress : decode 0b00000000000000000000000000001000#32 = .ok .compress := by decide
theorem test_decode_refuses_opcodes :
    decode 0x00000000 = .error .reservedOpcode ∧ decode 0x00000009 = .error .reservedOpcode ∧
      decode 0x000000FF = .error .reservedOpcode := by decide
theorem test_decode_refuses_reserved_bits :
    decode 0x00010001 = .error .nonzeroReserved ∧ decode 0x00010002 = .error .nonzeroReserved ∧
      decode 0x80000005 = .error .nonzeroReserved := by decide
theorem test_decode_refuses_length :
    decode 0x00000101 = .error .nonzeroLength ∧ decode 0x00000106 = .error .nonzeroLength := by decide
theorem test_encode_update : encode (.update 3) = 0x00000305 := by decide
theorem test_illegal_word_status :
    statusAfter (issue 0x00000000 State.reset) 0x00000002 = true ∧
      statusAfter (issue 0x00010002 State.reset) 0x00000002 = true := by decide +kernel

/-! The compression core: V-G1 to V-G6, V-R1, V-P1, V-C3, V-C4. -/

/-- G on words 0..3 of an otherwise zero state. -/
def mixFirstFour (a b c d mx my : Word) : List Word :=
  ((mixG (Vector.ofFn fun i : Fin 16 => [a, b, c, d].getD i.val 0) 0 1 2 3 mx my).toList).take 4

theorem test_mixG_zero_and_one :
    mixFirstFour 0 0 0 0 0 0 = [0, 0, 0, 0] ∧
      mixFirstFour 1 0 0 0 0 0 = [0x00000011, 0x20220202, 0x11010100, 0x11000100] ∧
      mixFirstFour 0 0 0 0 1 0 = [0x00000011, 0x20220202, 0x11010100, 0x11000100] := by decide +kernel
theorem test_mixG_wraps :
    mixFirstFour 0xFFFFFFFF 0xFFFFFFFF 0xFFFFFFFF 0xFFFFFFFF 0xFFFFFFFF 0xFFFFFFFF =
        [0x000FFFDC, 0x3DB81BE4, 0xDC020DFE, 0xDC000DFF] ∧
      mixFirstFour 0x6A09E667 0x510E527F 0x6A09E667 0 0 0 = [0xEB2778D5, 0x5A8196B9, 0x70C46342, 0xCDD3C1C3] ∧
      mixFirstFour 0x80000000 0x80000000 0 0 0 0 = [0x00080000, 0x00001010, 0x00000800, 0x00000800] := by
  decide +kernel
theorem test_mixRound :
    mixRound zeros16 countUp =
      #v[0x952AB9C9, 0x7A41633A, 0x5E47082C, 0xB024987E, 0x4E2C267A, 0xDB3491DA, 0x19C80149, 0xF331BDEE, 0x05B20CC7,
        0xA631AAD3, 0xCEA858DE, 0x1DAFFE74, 0xA87276E2, 0xF65026ED, 0x7CB45FD1, 0x83972794] := by decide +kernel
theorem test_permute : permute countUp = #v[2, 6, 3, 10, 7, 0, 4, 13, 1, 11, 12, 5, 9, 14, 15, 8] := by decide +kernel
theorem test_compress_countUp :
    compressFn iv countUp 0 64 0x01 =
      #v[0x17C45B17, 0xE26EEBE8, 0x6F9E8756, 0xE30B34B0, 0xBB0CE120, 0x568CF4D4, 0x78374E9C, 0x42CFAABD, 0xBC0DA15A,
        0xFE9508F0, 0x551F849D, 0x0F2B4A58, 0x087F71A3, 0xF0038556, 0x290B2FE4, 0xD5572150] := by decide +kernel
theorem test_compress_maximum :
    compressFn (Vector.replicate 8 0xFFFFFFFF) (Vector.replicate 16 0xFFFFFFFF) 0xFFFFFFFFFFFFFFFF 0xFFFFFFFF 0xFFFFFFFF =
      #v[0xC19BC0CE, 0xED53D438, 0x7ACEEE9E, 0x616FB0AE, 0x9AA69F73, 0x21F161EC, 0x57BB366D, 0x47167E6A, 0x4C5214D8,
        0x87BDE545, 0xE43EA8D1, 0xF1CF69C7, 0xBA4D6A53, 0xFA4ED980, 0xC69EAE9D, 0x917D9C10] := by decide +kernel

/-! Parent nodes and the root of two chunks: V-T8. -/

def chunkCv0 : Cv :=
  #v[0x44659E5C, 0xD193E311, 0x10C7BEF4, 0x56BCD5CC, 0x7D17AB69, 0xB60E0A61, 0xE9FEFC91, 0xB1E8B42F]
def chunkCv1 : Cv :=
  #v[0xB8231F5B, 0xA2680339, 0x919550C1, 0xB7D18903, 0xA652EB16, 0x0A4DD3DF, 0xA2226AA6, 0xA71C761B]

theorem test_parentCv :
    parentCv iv 0 chunkCv0 chunkCv1 =
      #v[0x4F7D1F81, 0x8E253517, 0x928BC627, 0x4A7CFF14, 0x476D86AC, 0xF1EE3DF7, 0xB50889FD, 0x4F808FE3] := by
  decide +kernel
theorem test_rootBlock_of_parent :
    first8Words (rootBlock (parentOutput iv 0 chunkCv0 chunkCv1) 0) =
      #v[0x02B676E7, 0x2AD27C8C, 0x82A10B4D, 0x2062BFA8, 0x76F52E5D, 0x8E837E46, 0x9B52F2D6, 0x4AA2FB85] := by
  decide +kernel

/-! One step of each command. -/

/-- V-X20: INIT clears FATAL. -/
theorem test_init_clears_fatal : statusAfter (issue 0x00000001 fatalReset) 0x00000000 = true := by decide +kernel

/-- V-X19: a key error keeps FATAL. -/
theorem test_initKeyed_short_key :
    statusAfter (issue 0x00001F02 State.reset) 0x00000001 = true ∧
      statusAfter (issue 0x00001F02 fatalReset) 0x00000021 = true := by decide +kernel

/-- V-E0: SETKEY of the fixture's key, "whats the Elvish word for friend" (30 R308). -/
theorem test_packKey :
    packKey #v[0x77, 0x68, 0x61, 0x74, 0x73, 0x20, 0x74, 0x68, 0x65, 0x20, 0x45, 0x6C, 0x76, 0x69, 0x73, 0x68, 0x20,
        0x77, 0x6F, 0x72, 0x64, 0x20, 0x66, 0x6F, 0x72, 0x20, 0x66, 0x72, 0x69, 0x65, 0x6E, 0x64] =
      #v[0x74616877, 0x68742073, 0x6C452065, 0x68736976, 0x726F7720, 0x6F662064, 0x72662072, 0x646E6569] := by
  decide +kernel

/-- The expansions of 30 R308: 16 writes and an UPDATE per piece, FINALIZE and one SQUEEZE for 65 bytes. -/
theorem test_macros :
    loadIn [0x61, 0x62, 0x63] =
        .write 32 (.window 0x040) 0x00636261 :: ((List.range 15).map fun i => .write 32 (.window (0x044 + 4 * i)) 0) ∧
      ((absorb (List.replicate 65 0)).filter (· = .write 32 (.window 0x000) 0x00004005)).length = 1 ∧
      (absorb (List.replicate 65 0)).getLast? = some (.write 32 (.window 0x000) 0x00000105) ∧
      (absorb (List.replicate 65 0)).length = 34 ∧ absorb [] = [] ∧
      (setKey (Vector.replicate 32 1))[7]? = some (.write 32 (.window 0x03C) 0x01010101) ∧
      (hashNewKeyed (Vector.replicate 32 1)).getLast? = some (.write 32 (.window 0x000) 0x00002002) ∧
      hashNewDerive [] = [.write 32 (.window 0x000) 0x00000003, .write 32 (.window 0x000) 0x00000004] ∧
      (digestEvents 64).length = 17 ∧ (digestEvents 65)[17]? = some (.write 32 (.window 0x000) 0x00000007) ∧
      (digestEvents 65).length = 34 := by decide +kernel

/-- V-E0's key, loaded from KEY_IN (42 R603). -/
theorem test_initKeyed_loads_key :
    goesTo (issue 0x00002002 { State.reset with
      keyIn := #v[0x74616877, 0x68742073, 0x6C452065, 0x68736976, 0x726F7720, 0x6F662064, 0x72662072, 0x646E6569] })
      (fun t => t.keyWords[0] = 0x74616877 ∧ t.chunk.cv[7] = 0x646E6569 ∧ readReg .status t = 0x00001000) = true := by
  decide +kernel

/-- The context phase (42 R604, 10 R123). -/
theorem test_initDerive_mode : statusAfter (issue 0x00000003 State.reset) 0x00002000 = true := by decide +kernel

/-- V-D-ctx: the context key of the fixture's context, 47 bytes in one block. -/
theorem test_deriveCommit_context_key :
    goesTo (issue 0x00000004 { State.reset with
      modeFlags := 0x20
      chunk := ⟨iv, writeBytes (Vector.replicate 64 0) 0
        [0x42, 0x4C, 0x41, 0x4B, 0x45, 0x33, 0x20, 0x32, 0x30, 0x31, 0x39, 0x2D, 0x31, 0x32, 0x2D, 0x32, 0x37, 0x20,
         0x31, 0x36, 0x3A, 0x32, 0x39, 0x3A, 0x35, 0x32, 0x20, 0x74, 0x65, 0x73, 0x74, 0x20, 0x76, 0x65, 0x63, 0x74,
         0x6F, 0x72, 0x73, 0x20, 0x63, 0x6F, 0x6E, 0x74, 0x65, 0x78, 0x74], 47, 0, 0⟩ })
      (fun t => t.keyWords =
        #v[0xDF278E8E, 0xBF30917B, 0x0771ED47, 0x222EE100, 0x0E388A39, 0xC1E00FFB, 0x20919033, 0x869A61F8] ∧
        t.modeFlags = 0x40) = true := by
  decide +kernel

/-- V-X11. -/
theorem test_deriveCommit_in_plain_mode : statusAfter (issue 0x00000004 State.reset) 0x00000004 = true := by
  decide +kernel

/-- V-A4: the 65th byte of the fixture, byte 64 = 0x40, compresses block 0. -/
theorem test_update_compresses_first_block :
    goesTo (issue 0x00000105 { State.reset with
      inData := Vector.replicate 16 0x7F7F7F40
      chunk := ⟨iv, Vector.ofFn fun i : Fin 64 => BitVec.ofNat 8 i.val, 64, 0, 0⟩ })
      (fun t => t.chunk.cv =
        #v[0x9D3729FF, 0x57F21CDB, 0xAB5A0F7D, 0x4E8F734E, 0xB16CF69F, 0x888CCC5C, 0x2D1D84AC, 0x206F2607] ∧
        bufferWords t.chunk.buf = zeros16.set 0 0x40 ∧ readReg .chunkInfo t = 0x00410101) = true := by
  decide +kernel

/-- V-T9, and its control case. -/
theorem test_update_overflow :
    statusAfter (issue 0x00000105 (nearLimit 64)) 0x00000025 = true ∧
      goesTo (issue 0x00000105 { nearLimit 64 with
        cvStackLen := 53
        chunk := ⟨iv, Vector.replicate 64 0, 64, 15, 0x3FFFFFFFFFFFFE⟩ }) (fun t => readReg .stackInfo t = 54) = true := by
  decide +kernel

/-- V-C2, V-K1: the empty input straight after reset. -/
theorem test_finalize_empty_input :
    goesTo (issue 0x00000006 State.reset) (fun t => t.outData =
      #v[0xB94913AF, 0xA6A1F9F5, 0xEA4D40A0, 0x49C9DC36, 0xC925CB9B, 0xB712C1AD, 0xCA939ACC, 0x62321FE4, 0xE7030FE0,
        0x6BF29AB6, 0x9FF0AA7F, 0x503033CD, 0xE0DF8D33, 0x86CCB885, 0x208BA99C, 0x3A24086C] ∧
      t.xofCtr = 1 ∧ readReg .status t = 0x00000010) = true := by
  decide +kernel

/-- V-K2: the digest of "abc", from the state of V-A7. -/
theorem test_finalize_abc :
    goesTo (issue 0x00000006 { State.reset with
      chunk := ⟨iv, writeBytes (Vector.replicate 64 0) 0 [0x61, 0x62, 0x63], 3, 0, 0⟩ })
      (fun t => digestOf 32 t.outData.toList =
        [0x64, 0x37, 0xB3, 0xAC, 0x38, 0x46, 0x51, 0x33, 0xFF, 0xB6, 0x3B, 0x75, 0x27, 0x3A, 0x8D, 0xB5, 0x48, 0xC5,
         0x58, 0x46, 0x5D, 0x79, 0xDB, 0x03, 0xFD, 0x35, 0x9C, 0x6C, 0xD5, 0xBD, 0x9D, 0x85]) = true := by
  decide +kernel

/-- V-O2, block 1. -/
theorem test_squeeze_block_one :
    goesTo (issue 0x00000007 afterFinalize) (fun t => t.outData =
      #v[0x7748F526, 0x60F6E889, 0x9EC9E6AF, 0x2BC5E0F9, 0x3039E792, 0x5904A824, 0x76F491CF, 0xDADBFFF9, 0x2EC20170,
        0x26409B15, 0xCA77F231, 0xFDDEF296, 0x828207F1, 0x36764E31, 0x531CA399, 0x21541663] ∧ t.xofCtr = 2) = true := by
  decide +kernel

/-- V-X12, V-X16. -/
theorem test_squeeze_errors :
    statusAfter (issue 0x00000007 State.reset) 0x00000004 = true ∧
      statusAfter (issue 0x00000007 fatalReset) 0x00000026 = true := by decide +kernel

/-- V-C5: the counter split. -/
theorem test_compress_counter_split :
    goesTo (issue 0x00000008 { State.reset with cmpCv := iv, cmpCtrLo := 2, cmpCtrHi := 1 }) (fun t => t.cmpOut =
      #v[0x6B3F4D3E, 0x1D52F97C, 0xD595F341, 0x86A7E33C, 0x83353DFA, 0x73E7A7B4, 0xC3BCA652, 0x2D1F6EA9, 0x28792112,
        0x5C8702EE, 0xC9BBEE89, 0x54F023AC, 0x98625E03, 0x0ED41786, 0x26AD6D22, 0x2B15C19D]) = true := by
  decide +kernel

/-- V-X18: COMPRESS executes while FATAL = 1. -/
theorem test_compress_while_fatal : statusAfter (issue 0x00000008 fatalReset) 0x00000020 = true := by decide +kernel

/-! Witnesses: a concrete state and operands that meet the hypotheses of each statement together. -/

theorem witness_DecodeOfEncode : (Instr.update 255).wf = true ∧ (Instr.initKeyed 0).wf = true := by decide
theorem witness_EncodeOfDecode : decode 0x0000FF05 = .ok (.update 255) := by decide
theorem witness_IllegalWords :
    NextCommand (hostDoes [wr .cmd 0x00000009]) 0x00000009 [] ∧ IllegalWord 0x00000000 ∧ IllegalWord 0x00000009 ∧
      IllegalWord 0x000000FF ∧ IllegalWord 0x00010001 ∧ IllegalWord 0xFFFF0005 ∧ IllegalWord 0x00000101 ∧
      IllegalWord 0x0000FF08 := by
  refine ⟨rfl, ?_, ?_, ?_, ?_, ?_, ?_, ?_⟩ <;> unfold IllegalWord <;> decide
theorem witness_IllegalWords_legal :
    NextCommand (hostDoes [wr .cmd 0x0000FF02]) 0x0000FF02 [] ∧ ¬ IllegalWord 0x00000001 ∧ ¬ IllegalWord 0x0000FF02 ∧
      ¬ IllegalWord 0x0000FF05 ∧ ¬ IllegalWord 0x00000008 := by
  refine ⟨rfl, ?_, ?_, ?_, ?_⟩ <;> unfold IllegalWord <;> decide
theorem witness_OpcodeRows :
    decode 0x00004105 = .ok (.update 65) ∧ 0x00004105#32 &&& tableMask (.update 65) = tableMatch (.update 65) ∧
      0x00004105#32 &&& tableMask (.update 0) = tableMatch (.update 0) := by decide
theorem witness_StepRunsDecoded :
    NextCommand (hostDoes [cmd (.update 64)]) 0x00004005 [] ∧ decode 0x00004005 = .ok (.update 64) := by
  unfold NextCommand; decide +kernel
theorem witness_StepTakesEvents :
    State.reset.hostQueue = [] ∧ (∃ t, step (hostDoes [rd .status]) = .next t) ∧
      (∃ t, step (hostDoes [wr (.inData 15) 1]) = .next t) := ⟨rfl, ⟨_, rfl⟩, ⟨_, rfl⟩⟩
theorem witness_OnlyAligned :
    (hostDoes [.read 32 (.window 0x1FC)]).hostQueue = [.read 32 (.window 0x1FC)] ∧ 0x1FC < 0x200 ∧ 0x1FC % 4 = 0 ∧
      (hostDoes [.write 8 (.window 0x040) 7]).hostQueue = [.write 8 (.window 0x040) 7] ∧ 8 ≠ 32 ∧
      (hostDoes [.read 32 (.window 0x1FF)]).hostQueue = [.read 32 (.window 0x1FF)] ∧ 0x1FF < 0x200 ∧ 0x1FF % 4 ≠ 0 := by
  decide
theorem witness_RegisterMap : 0x1FC < 0x200 ∧ 0x1FC % 4 = 0 := by decide
theorem witness_WindowStands :
    0x1FF < 0x200 ∧ Config.coreBase + 0x200 ≤ Config.coreBase + 0x200 := ⟨by decide, Nat.le_refl _⟩
theorem witness_Reads : (hostDoes [rd (.outData 15)]).hostQueue = [rd (.outData 15)] := rfl
theorem witness_Writes :
    (WindowReg.cmpFlags ≠ .cmd ∧ isReadWrite .cmpFlags = true ∧ (∀ i, WindowReg.cmpFlags ≠ .keyIn i) ∧
      (hostDoes [wr .cmpFlags 1]).hostQueue = [wr .cmpFlags 1]) ∧
    (WindowReg.keyIn 7 ≠ .cmd ∧ isReadWrite (.keyIn 7) = false ∧ WindowReg.status ≠ .keyIn 7 ∧
      (hostDoes [wr (.keyIn 7) 1]).hostQueue = [wr (.keyIn 7) 1]) := by decide
theorem witness_ReservedOffsets :
    (∀ off ∈ [0x0F0, 0x0FC, 0x180, 0x1FC], off % 4 = 0 ∧ ((0x0F0 ≤ off ∧ off ≤ 0x0FC) ∨ (0x180 ≤ off ∧ off ≤ 0x1FC)) ∧
      (hostDoes [.read 32 (.window off)]).hostQueue = [.read 32 (.window off)] ∧
      (hostDoes [.write 32 (.window off) 1]).hostQueue = [.write 32 (.window off) 1]) ∧
    (∀ off ∈ [0x004, 0x01C, 0x080, 0x0BC, 0x140, 0x17C], off % 4 = 0 ∧ ((0x004 ≤ off ∧ off ≤ 0x01C) ∨
      (0x080 ≤ off ∧ off ≤ 0x0BC) ∨ (0x140 ≤ off ∧ off ≤ 0x17C)) ∧
      (hostDoes [.write 32 (.window off) 1]).hostQueue = [.write 32 (.window off) 1]) ∧
    (∀ off ∈ [0x000, 0x020, 0x03C], off % 4 = 0 ∧ (off = 0x000 ∨ (0x020 ≤ off ∧ off ≤ 0x03C)) ∧
      (hostDoes [.read 32 (.window off)]).hostQueue = [.read 32 (.window off)]) := by decide
theorem witness_HiddenState :
    (hostDoes [rd .status]).hostQueue = [rd .status] ∧ (∃ t, step (hostDoes [rd .status]) = .next t) ∧
      ∃ u, step { hostDoes [rd .status] with keyWords := zeros8, keyIn := iv } = .next u := ⟨rfl, ⟨_, rfl⟩, ⟨_, rfl⟩⟩
theorem witness_PlatformReset : (hostDoes [.reset, cmd .init]).hostQueue = .reset :: [cmd .init] := rfl
theorem witness_MixG : ([0, 4, 8, 12, 1, 5, 9, 13] : List (Fin 16)).Nodup := by decide
theorem witness_InitKeyed : (31 : Nat) ≠ 32 ∧ (33 : Nat) ≠ 32 := by decide
theorem witness_DeriveCommit :
    ({ State.reset with modeFlags := 0x20 } : State).fatal = false ∧
      ({ State.reset with modeFlags := 0x20 } : State).modeFlags = 0x20 ∧
      State.reset.fatal = false ∧ State.reset.modeFlags ≠ 0x20 := by decide
theorem witness_UpdateLength : State.reset.fatal = false ∧ 64 < 65 := by decide

theorem nearLimit_meets_Inv (n : Fin 65) (h : n.val ≠ 0) : Inv (nearLimit n) where
  legalMode := Or.inl rfl
  plainKey := fun _ => rfl
  hasher := fun _ =>
    { stackLen := by show 54 = popcount 0x7FFFFFFFFFFFFE; decide +kernel
      counterRange := by show (0x7FFFFFFFFFFFFE#64).toNat ≤ 2 ^ 55 - 2; decide
      zeroPadded := fun j hj _ => by simp [nearLimit]
      lastBlockKept := fun h0 => absurd h0 h
      firstBlockCv := fun h0 => absurd h0 (show (15 : Fin 16).val ≠ 0 by decide) }

/-- The last byte that fits. -/
theorem witness_UpdateCompletes :
    Inv (nearLimit 63) ∧ (nearLimit 63).fatal = false ∧ absorbedBytes (nearLimit 63) + 1 ≤ 1024 * (2 ^ 55 - 1) :=
  ⟨nearLimit_meets_Inv 63 (by decide), by decide +kernel, by decide +kernel⟩
/-- The first byte that does not (V-T9). -/
theorem witness_UpdateOverflows :
    Inv (nearLimit 64) ∧ (nearLimit 64).fatal = false ∧ 1024 * (2 ^ 55 - 1) < absorbedBytes (nearLimit 64) + 1 ∧
      chunkLen (nearLimit 64).chunk = 1024 ∧ (nearLimit 64).cvStackLen.val = 54 ∧
      ((nearLimit 64).chunk.counter + 1).toNat % 2 = 1 :=
  ⟨nearLimit_meets_Inv 64 (by decide), by decide +kernel, by decide +kernel, by decide +kernel, by decide +kernel,
    by decide +kernel⟩
/-- A chunk that this UPDATE fills before the push, and one it does not leave. -/
theorem witness_UpdateOverflows_filled_inside :
    (nearLimit 1).fatal = false ∧ chunkLen (nearLimit 1).chunk < 1024 ∧ 1024 < chunkLen (nearLimit 1).chunk + 64 ∧
      (nearLimit 1).cvStackLen.val = 54 ∧ ((nearLimit 1).chunk.counter + 1).toNat % 2 = 1 ∧
      statusAfter (issue 0x00004005 (nearLimit 1)) 0x00000025 = true ∧
      chunkLen (zerosBuffered 0 15).chunk + 64 = 1024 := by decide +kernel
theorem witness_UpdateWithinBlock :
    (zerosBuffered 60 0).fatal = false ∧ (zerosBuffered 60 0).chunk.blockLen.val + 4 ≤ 64 ∧
      59 < (zerosBuffered 60 0).chunk.blockLen.val ∧ (zerosBuffered 60 0).chunk.blockLen.val + 3 ≤ 63 ∧
      63 = (zerosBuffered 60 0).chunk.blockLen.val + 3 := by decide +kernel
theorem witness_UpdatePastBlock :
    (zerosBuffered 1 14).fatal = false ∧ 64 < (zerosBuffered 1 14).chunk.blockLen.val + 64 ∧
      chunkLen (zerosBuffered 1 14).chunk + 64 ≤ 1024 ∧
      (∀ j : Fin 64, j.val < (zerosBuffered 1 14).chunk.blockLen.val →
        (Vector.replicate 64 0 : Bytes64)[j] = (zerosBuffered 1 14).chunk.buf[j]) ∧
      (∀ j k : Fin 64, j.val = (zerosBuffered 1 14).chunk.blockLen.val + k.val →
        (Vector.replicate 64 0 : Bytes64)[j] = inputByte (zerosBuffered 1 14) k) := by decide +kernel
theorem witness_UpdatePastBlock_full_chunk :
    64 < (zerosBuffered 64 14).chunk.blockLen.val + 64 ∧ chunkLen (zerosBuffered 64 14).chunk + 64 = 1024 := by
  decide +kernel
theorem witness_UpdatePastChunk :
    (zerosBuffered 64 15).fatal = false ∧ chunkLen (zerosBuffered 64 15).chunk = 1024 ∧
      ∃ u, addChunkCv (chainingValue (chunkOutput (zerosBuffered 64 15).modeFlags (zerosBuffered 64 15).chunk))
        ((zerosBuffered 64 15).chunk.counter + 1) (zerosBuffered 64 15) = .ok u :=
  ⟨rfl, rfl, ⟨_, rfl⟩⟩
theorem witness_UpdateIgnores :
    (∀ j : Fin 64, j.val < 1 → inputByte { State.reset with inData := zeros16.set 15 1 } j = inputByte State.reset j) ∧
      goesTo (exec (.update 1) State.reset) (fun _ => true) = true := by decide +kernel
theorem witness_UpdatesDependOnBytes :
    State.reset.fatal = false ∧ (∀ p ∈ ([[1], [2, 3]] : List (List Byte)), p.length ≤ 64) ∧
      ([[1], [2, 3]] : List (List Byte)).flatten = ([[1, 2], [], [3]] : List (List Byte)).flatten ∧
      (absorbPieces State.reset [[1], [2, 3]]).isSome = true := by decide +kernel
theorem witness_AddChunkCvMerges :
    (1#64).toNat % 2 = 1 ∧ State.reset.cvStackLen.val < 54 ∧ (nearLimit 64).cvStackLen.val = 54 ∧
      (2#64).toNat % 2 = 0 ∧ (nearLimit 64).cvStackLen.val = (53 : Fin 54).val + 1 := by decide +kernel
theorem witness_AddChunkCvKeeps :
    (1#64).toNat = ([] : List Cv).length + 1 ∧ (1#64).toNat < 2 ^ 55 ∧
      stackEntries State.reset = subtrees State.reset.keyWords State.reset.modeFlags 55 [] ∧
      ∃ t, addChunkCv iv 1 State.reset = .ok t :=
  ⟨rfl, by decide, by decide +kernel, ⟨_, rfl⟩⟩
theorem witness_MachineHashes :
    State.reset.fatal = false ∧ State.reset.chunk = chunkInit State.reset.keyWords 0 ∧ State.reset.cvStackLen.val = 0 ∧
      (∀ p ∈ ([[0x61, 0x62], [0x63]] : List (List Byte)), p.length ≤ 64) ∧
      ([[0x61, 0x62], [0x63]] : List (List Byte)).flatten.length ≤ 1024 * (2 ^ 55 - 1) := by decide +kernel
theorem witness_Squeeze : afterFinalize.fatal = false ∧ afterFinalize.outValid = true ∧ State.reset.outValid = false := by
  decide
theorem witness_FinalizeAndSqueezeKeep :
    (∃ t, exec .finalize State.reset = .next t) ∧ (∃ t, exec .squeeze afterFinalize = .next t) ∧
      (goesTo (exec (.update 64) State.reset) fun _ => true) = true :=
  ⟨⟨_, rfl⟩, ⟨_, rfl⟩, by decide +kernel⟩
theorem witness_ShorterOutput : 37 ≤ 200 := by decide
theorem witness_Errors :
    goesTo (exec .squeeze State.reset) (fun t => t.err ≠ .ok ∧ t.err ≠ .stackOverflow) = true := by decide +kernel
theorem witness_Checks :
    (NextCommand (hostDoes [wr .cmd 0x00010001]) 0x00010001 [] ∧ IllegalWord 0x00010001 ∧
      ∃ t, step (hostDoes [wr .cmd 0x00010001]) = .next t) ∧
    (NextCommand (hostDoes [cmd .squeeze]) 0x00000007 [] ∧ decode 0x00000007 = .ok .squeeze ∧
      ∃ t, step (hostDoes [cmd .squeeze]) = .next t) :=
  ⟨⟨rfl, .inr (.inl (by decide)), ⟨_, rfl⟩⟩, ⟨rfl, by decide, ⟨_, rfl⟩⟩⟩
theorem witness_Fatal :
    fatalReset.fatal = true ∧ refusedWhenFatal (.update 65) = true ∧ refusedWhenFatal .squeeze = true := by decide
theorem witness_ChangeFatal :
    (∃ t, step ((nearLimit 64).withFetchWord 32 0x105) = .next t ∧ t.fatal = true) ∧ (nearLimit 64).fatal = false ∧
      (∃ t, step (fatalReset.withFetchWord 32 0x1) = .next t ∧ t.fatal = false) ∧ fatalReset.fatal = true := by
  refine ⟨?_, by decide +kernel, ?_, rfl⟩
  · obtain ⟨t, h, p⟩ := exists_of_goesTo (o := step ((nearLimit 64).withFetchWord 32 0x105)) (p := fun t => t.fatal)
      (by decide +kernel)
    exact ⟨t, h, p⟩
  · exact ⟨_, rfl, rfl⟩
theorem witness_ChangeMode :
    ∃ t, step (hostDoes [cmd .initDerive]) = .next t ∧ t.modeFlags ≠ (hostDoes [cmd .initDerive]).modeFlags :=
  ⟨_, rfl, by decide⟩
theorem witness_ChangeResults_outData :
    goesTo (step (hostDoes [cmd .finalize])) (fun t => t.outData ≠ (hostDoes [cmd .finalize]).outData) = true := by
  refine goesTo_mono test_finalize_empty_input fun t ht => decide_eq_true ?_
  rw [(of_decide_eq_true ht).1]
  decide
theorem witness_ChangeResults_cmpOut :
    goesTo (issue 0x00000008 { State.reset with cmpCv := iv, cmpCtrLo := 2, cmpCtrHi := 1 })
      (fun t => t.cmpOut ≠ State.reset.cmpOut) = true := by
  refine goesTo_mono test_compress_counter_split fun t ht => decide_eq_true ?_
  rw [of_decide_eq_true ht]
  decide
theorem witness_ChangeOutputControl :
    goesTo (step (hostDoes [cmd .finalize])) (fun t => t.outValid = true ∧ t.xofCtr ≠ 0) = true ∧
      goesTo (issue 0x00000001 afterFinalize) (fun t => t.outValid = false) = true ∧
      goesTo (issue 0x00000007 afterFinalize) (fun t => t.xofCtr ≠ afterFinalize.xofCtr) = true := by decide +kernel
theorem witness_ChangeChunk :
    goesTo (step (hostDoes [cmd (.update 64)])) (fun t => t.chunk.blockLen ≠ State.reset.chunk.blockLen) = true ∧
      goesTo (issue 0x00000105 (zerosBuffered 64 15)) (fun t => t.cvStack ≠ State.reset.cvStack) = true := by
  decide +kernel
theorem witness_Flags : LegalMode 0x40 ∧ (zerosBuffered 64 15).chunk.blocksCompressed.val ≠ 0 ∧
    State.reset.chunk.blocksCompressed.val = 0 := ⟨.inr (.inr (.inr rfl)), by decide, rfl⟩
theorem witness_LittleEndian : ([7] : List Byte).length ≤ 64 ∧ ([1, 2, 3, 4] : List Byte).length % 4 = 0 ∧ 0 < ([7] : List Word).length ∧ 3 < 4 := by
  decide
/-- The invariant is also met well away from reset, and a step is answered there. -/
theorem witness_StepKeepsInvariant :
    Inv (nearLimit 63) ∧ ∃ t, step (nearLimit 63) = .next t := ⟨nearLimit_meets_Inv 63 (by decide), ⟨_, rfl⟩⟩

end Sys2Proof.Tests
end

section
/-! The byte order of 00_scope.md R13, and the layouts of LOADIN and SETKEY by it (30 R308, 20 R204). -/

namespace Sys2Proof.Machine

/-- The four bytes of a word, put together again, are the word (R13). -/
theorem leWord_wordBytes (w : Word) :
    leWord (w.extractLsb' 0 8) (w.extractLsb' 8 8) (w.extractLsb' 16 8) (w.extractLsb' 24 8) = w := by
  apply BitVec.eq_of_toNat_eq
  have hw := w.isLt
  simp only [leWord_toNat, extractLsb'_toNat_eq]
  omega

@[simp] theorem leBytes_nil : leBytes [] = [] := rfl

@[simp] theorem leBytes_cons (w : Word) (ws : List Word) : leBytes (w :: ws) = wordBytes w ++ leBytes ws := rfl

@[simp] theorem wordBytes_length (w : Word) : (wordBytes w).length = 4 := rfl

/-- Byte j of a word is its bits 8 j to 8 j + 7 (R13). -/
theorem getElem?_wordBytes (w : Word) {j : Nat} (h : j < 4) : (wordBytes w)[j]? = some (w.extractLsb' (8 * j) 8) := by
  match j, h with
  | 0, _ | 1, _ | 2, _ | 3, _ => rfl

/-- le_words undoes le_bytes. -/
theorem leWords_leBytes (ws : List Word) : leWords (leBytes ws) = ws := by
  induction ws with
  | nil => rfl
  | cons w ws ih =>
    calc leWords (leBytes (w :: ws))
      _ = leWord (w.extractLsb' 0 8) (w.extractLsb' 8 8) (w.extractLsb' 16 8) (w.extractLsb' 24 8) ::
          leWords (leBytes ws) := rfl
      _ = w :: ws := by rw [leWord_wordBytes, ih]

/-- le_bytes undoes le_words on whole words. The recursion is that of `leWords`, four bytes at a time. -/
theorem leBytes_leWords (b : List Byte) (h : b.length % 4 = 0) : leBytes (leWords b) = b := by
  induction b using leWords.induct with
  | case1 b0 b1 b2 b3 rest ih =>
    have hrest : rest.length % 4 = 0 := by simpa only [List.length_cons, Nat.add_assoc, Nat.add_mod_right] using h
    rw [leWords, leBytes_cons, wordBytes_leWord, ih hrest]
    rfl
  | case2 b hshort =>
    -- Fewer than four bytes are left, and 4 divides their number: none.
    match b, h, hshort with
    | [], _, _ => rfl
    | b0 :: b1 :: b2 :: b3 :: rest, _, hshort => exact (hshort b0 b1 b2 b3 rest rfl).elim

/-- Byte 4 i + j of le_bytes is byte j of word i (R13). -/
theorem getElem?_leBytes (ws : List Word) (i j : Nat) (hi : i < ws.length) (hj : j < 4) :
    (leBytes ws)[4 * i + j]? = some (ws[i].extractLsb' (8 * j) 8) := by
  induction ws generalizing i with
  | nil => cases hi
  | cons w ws ih =>
    rw [leBytes_cons]
    cases i with
    | zero =>
      rw [List.getElem?_append_left (by rw [wordBytes_length]; omega), Nat.mul_zero, Nat.zero_add]
      exact getElem?_wordBytes w hj
    | succ i =>
      rw [List.getElem?_append_right (by rw [wordBytes_length]; omega), wordBytes_length,
        show 4 * (i + 1) + j - 4 = 4 * i + j by omega]
      exact ih i (Nat.lt_of_succ_lt_succ hi)

/-- LOADIN lays out a byte string of at most 64 bytes as itself and zeros (R308). -/
theorem leBytes_packBytes (b : List Byte) (h : b.length ≤ 64) :
    leBytes (packBytes b).toList = b ++ List.replicate (64 - b.length) 0 := by
  have hl : (leBytes (packBytes b).toList).length = 64 := by rw [leBytes_length, Vector.length_toList]
  apply List.ext_getElem
  · rw [hl, List.length_append, List.length_replicate]
    omega
  · intro j h1 h2
    have hbyte := leBytes_packBytes_getD b j (hl ▸ h1)
    rw [List.getD_eq_getElem _ _ h1] at hbyte
    rw [hbyte]
    by_cases hj : j < b.length
    · rw [List.getElem_append_left hj, List.getD_eq_getElem _ _ hj]
    · rw [List.getElem_append_right (by omega), List.getElem_replicate, List.getD_eq_default _ _ (by omega)]

/-- Settles O56: le_words and le_bytes undo each other by recursion on the words and on `leWords`; the layouts are the
laws of `packBytes` and `packKey`. -/
theorem littleEndianRoundTrip : Obligations.LittleEndianRoundTrip :=
  ⟨leWords_leBytes, leBytes_leWords, getElem?_leBytes, leBytes_packBytes, leBytes_packKey⟩

end Sys2Proof.Machine
end

section
/-! Where the window stands (00_scope.md R8, 20_memory.md R200). -/

namespace Sys2Proof.Machine

/-- `locate` looks at an address only through the window offset it stands for. -/
theorem locate_congr {a a' : HostAddr} (bits : Nat) (h : windowOffset a = windowOffset a') :
    locate bits a = locate bits a' := by
  rw [locate, locate, h]

/-- An address with no window offset is outside the window. -/
theorem locate_of_windowOffset_eq_none {a : HostAddr} (bits : Nat) (h : windowOffset a = none) :
    locate bits a = .error .outsideWindow := by
  rw [locate, h]

theorem windowOffset_window {off : Nat} (h : off < 0x200) : windowOffset (.window off) = some off := if_pos h

/-- The window's bytes stand at CORE_BASE + offset. -/
theorem windowOffset_coreBase_add {off : Nat} (h : off < 0x200) :
    windowOffset (.absolute (Config.coreBase + off)) = some off := by
  rw [windowOffset, if_pos ⟨Nat.le_add_right _ _, Nat.add_lt_add_left h _⟩, Nat.add_sub_cancel_left]

/-- No address below CORE_BASE, or at CORE_BASE + 0x200 or above, is in the window. -/
theorem windowOffset_absolute_eq_none {address : Nat}
    (h : address < Config.coreBase ∨ Config.coreBase + 0x200 ≤ address) :
    windowOffset (.absolute address) = none :=
  if_neg (by omega)

/-- Settles O10: both forms of an address in the window stand for one offset, and an address outside it for none. -/
theorem windowStandsAtCoreBase : Obligations.WindowStandsAtCoreBase :=
  ⟨fun bits _ h => locate_congr bits ((windowOffset_coreBase_add h).trans (windowOffset_window h).symm),
    fun bits _ h => locate_of_windowOffset_eq_none bits (windowOffset_absolute_eq_none h)⟩

end Sys2Proof.Machine
end

section
/-! What a step can write of the core's own registers: the layer under the statements on who changes what, and under the
invariant. -/

namespace Sys2Proof.Machine

/-- `t` has the hasher of `s`, its output control (10 R121, R122) and its FATAL. -/
structure KeepsCore (s t : State) : Prop where
  hasher : SameHasher s t
  outValid : t.outValid = s.outValid
  xofCtr : t.xofCtr = s.xofCtr
  fatal : t.fatal = s.fatal

theorem SameHasher.refl (s : State) : SameHasher s s := ⟨rfl, rfl, rfl, rfl, rfl⟩

theorem SameHasher.mode_key {s t : State} (h : SameHasher s t) :
    t.modeFlags = s.modeFlags ∧ t.keyWords = s.keyWords :=
  ⟨h.1, h.2.1⟩

theorem SameHasher.chunk_stack {s t : State} (h : SameHasher s t) :
    t.chunk = s.chunk ∧ t.cvStack = s.cvStack ∧ t.cvStackLen = s.cvStackLen :=
  h.2.2

theorem KeepsCore.refl (s : State) : KeepsCore s s := ⟨.refl s, rfl, rfl, rfl⟩

theorem keepsCore_setErr (e : ErrCode) (s : State) : KeepsCore s (setErr e s) := ⟨.refl s, rfl, rfl, rfl⟩

theorem keepsCore_hostRead (r : WindowReg) (s : State) : KeepsCore s (hostRead r s) := ⟨.refl s, rfl, rfl, rfl⟩

theorem keepsCore_writeReg (r : WindowReg) (v : Word) (s : State) : KeepsCore s (writeReg r v s) where
  hasher := ⟨writeReg_modeFlags r v s, writeReg_keyWords r v s, writeReg_chunk r v s, writeReg_cvStack r v s,
    writeReg_cvStackLen r v s⟩
  outValid := writeReg_outValid r v s
  xofCtr := writeReg_xofCtr r v s
  fatal := writeReg_fatal r v s

/-- Taking an event off the queue touches none of the core's registers. -/
theorem KeepsCore.of_taken {s t : State} {rest : List HostEvent} (h : KeepsCore { s with hostQueue := rest } t) :
    KeepsCore s t :=
  ⟨h.hasher, h.outValid, h.xofCtr, h.fatal⟩

/-- The commands that construct a hasher, with the key and the mode they give it (42 R602 to R605). -/
inductive Constructs (s : State) : Instr → Cv → Word → Prop
  | init : Constructs s .init iv 0x00
  | initKeyed : Constructs s (.initKeyed 32) s.keyIn keyedHash
  | initDerive : Constructs s .initDerive iv deriveKeyContext
  | deriveCommit : Constructs s .deriveCommit (first8Words (rootBlock (rootOutput s) 0)) deriveKeyMaterial

/-- What a command can do to the core's registers: keep them, construct a hasher, absorb input, overflow, or set the
output control. COMPRESS and every reported error but STACK_OVERFLOW are
among `keeps` (40 R412, 60 R801). -/
inductive ExecEffect (s t : State) : Instr → Prop
  | keeps {i : Instr} (h : KeepsCore s t) : ExecEffect s t i
  | construct {i : Instr} {key : Cv} {flags : Word} (hc : Constructs s i key flags)
      (h : t = setErr .ok (hasherInit key flags s)) : ExecEffect s t i
  | absorb {len : Nat} {u : State} (hf : s.fatal = false) (hu : treeUpdate (inputBytes len s) s = .ok u)
      (h : t = setErr .ok u) : ExecEffect s t (.update len)
  | overflow {len : Nat} (h : t = stackOverflow s) : ExecEffect s t (.update len)
  | finalize (hh : SameHasher s t) (hf : t.fatal = s.fatal) (hv : t.outValid = true) (hx : t.xofCtr = 1) :
      ExecEffect s t .finalize
  | squeeze (hh : SameHasher s t) (hf : t.fatal = s.fatal) (hv : t.outValid = s.outValid)
      (hx : t.xofCtr = s.xofCtr + 1) : ExecEffect s t .squeeze

/-- The one inversion lemma over all commands. -/
theorem exec_effect {i : Instr} {s t : State} (h : exec i s = .next t) : ExecEffect s t i := by
  cases i with
  | init => exact .construct .init (execInit_cases h)
  | initKeyed len =>
    obtain ⟨-, rfl⟩ | ⟨rfl, ht⟩ := execInitKeyed_cases h
    · exact .keeps (keepsCore_setErr _ s)
    · exact .construct .initKeyed ht
  | initDerive => exact .construct .initDerive (execInitDerive_cases h)
  | deriveCommit =>
    obtain ⟨-, rfl⟩ | ⟨-, -, rfl⟩ | ⟨-, -, ht⟩ := execDeriveCommit_cases h
    · exact .keeps (keepsCore_setErr _ s)
    · exact .keeps (keepsCore_setErr _ s)
    · exact .construct .deriveCommit ht
  | update len =>
    obtain ⟨-, rfl⟩ | ⟨-, -, rfl⟩ | ⟨hf, -, u, hu, ht⟩ | ⟨-, -, -, ht⟩ := execUpdate_cases h
    · exact .keeps (keepsCore_setErr _ s)
    · exact .keeps (keepsCore_setErr _ s)
    · exact .absorb hf hu ht
    · exact .overflow ht
  | finalize =>
    obtain ⟨-, rfl⟩ | ⟨-, rfl⟩ := execFinalize_cases h
    · exact .keeps (keepsCore_setErr _ s)
    · exact .finalize (.refl s) rfl rfl rfl
  | squeeze =>
    obtain ⟨-, rfl⟩ | ⟨-, -, rfl⟩ | ⟨-, -, rfl⟩ := execSqueeze_cases h
    · exact .keeps (keepsCore_setErr _ s)
    · exact .keeps (keepsCore_setErr _ s)
    · exact .squeeze (.refl s) rfl rfl rfl
  | compress =>
    rw [execCompress_cases h]
    exact .keeps ⟨.refl s, rfl, rfl, rfl⟩

/-- What a step can do to the core's registers: an access, an idle step or an illegal word keeps them all, and the
platform's reset and a command are named, with the command's effect. -/
inductive StepEffect (s t : State) : Prop where
  | keeps (h : KeepsCore s t)
  | reset (hr : StepResets s) (u : State) (h : t = platformReset u)
  | command (i : Instr) (rest : List HostEvent) (hr : StepRuns s i) (h : ExecEffect { s with hostQueue := rest } t i)

theorem step_effect {s t : State} (h : step s = .next t) : StepEffect s t := by
  obtain ⟨-, rfl⟩ | ⟨e, rest, hq, hf, heff⟩ := step_cases h
  · exact .keeps (.refl t)
  · cases heff with
    | command i hp hi => exact .command i rest ⟨_, hf.trans hp⟩ (exec_effect hi)
    | illegal _ _ _ _ _ _ ht => rw [ht]; exact .keeps (keepsCore_setErr _ _).of_taken
    | store _ _ r v _ _ _ ht => rw [ht]; exact .keeps (keepsCore_writeReg r v _).of_taken
    | load _ _ r _ _ ht => rw [ht]; exact .keeps (keepsCore_hostRead r _).of_taken
    | reset he ht => exact .reset ⟨rest, he ▸ hq⟩ _ ht

end Sys2Proof.Machine
end

section
/-! The invariant (10_state.md R110, R111, R113; 41 R505, R506; 42 R611, R613) holds after reset, and every step keeps
it. -/

namespace Sys2Proof.Machine

/-- The invariant speaks of the hasher and FATAL alone. -/
theorem Inv.of_sameHasher {s t : State} (hs : Inv s) (hh : SameHasher s t) (hf : t.fatal = s.fatal) : Inv t := by
  obtain ⟨hmode, hkey, hchunk, -, hlen⟩ := hh
  refine ⟨hmode ▸ hs.legalMode, hmode ▸ hkey ▸ hs.plainKey, fun hft => ?_⟩
  have hi := hs.hasher (hf ▸ hft)
  constructor
  · rw [hlen, hchunk]; exact hi.stackLen
  · rw [hchunk]; exact hi.counterRange
  · rw [hchunk]; exact hi.zeroPadded
  · rw [hchunk]; exact hi.lastBlockKept
  · rw [hchunk, hkey]; exact hi.firstBlockCv

theorem popcount_zero : popcount 0 = 0 := popcountBits_add 64 0 0 (by decide)

/-- A hasher with no input yet: an empty stack and a fresh first chunk. -/
theorem hasherInv_of_fresh {s : State} (hchunk : s.chunk = chunkInit s.keyWords 0) (hlen : s.cvStackLen = 0) :
    HasherInv s := by
  constructor
  · rw [hlen, hchunk]; exact popcount_zero.symm
  · rw [hchunk]; exact Nat.zero_le (2 ^ 55 - 2)
  · intro j hj _; simp only [hchunk, chunkInit, Vector.getElem_replicate]
  · intro _; rw [hchunk]; exact ⟨rfl, rfl⟩
  · intro _; rw [hchunk]; rfl

theorem inv_reset : Inv State.reset where
  legalMode := .inl rfl
  plainKey _ := rfl
  hasher _ := hasherInv_of_fresh rfl rfl

/-- Settles O57: after reset the hasher is a fresh plain one. -/
theorem resetStateMeetsInvariant : Obligations.ResetStateMeetsInvariant := inv_reset

theorem inv_platformReset (s : State) : Inv (platformReset s) :=
  inv_reset.of_sameHasher (.refl State.reset) rfl

/-- Each construction gives a legal mode, with KEY_WORDS = IV where R111 asks for it. -/
theorem Constructs.mode_and_key {s : State} {i : Instr} {key : Cv} {flags : Word} (h : Constructs s i key flags) :
    LegalMode flags ∧ (flags = 0x00 ∨ flags = 0x20 → key = iv) := by
  cases h with
  | init => exact ⟨.inl rfl, fun _ => rfl⟩
  | initKeyed => exact ⟨.inr (.inl rfl), fun h => absurd h (by decide)⟩
  | initDerive => exact ⟨.inr (.inr (.inl rfl)), fun _ => rfl⟩
  | deriveCommit => exact ⟨.inr (.inr (.inr rfl)), fun h => absurd h (by decide)⟩

/-- Any construction establishes the invariant, whatever held before. -/
theorem Constructs.inv {s : State} {i : Instr} {key : Cv} {flags : Word} (h : Constructs s i key flags) :
    Inv (setErr .ok (hasherInit key flags s)) where
  legalMode := h.mode_and_key.1
  plainKey := h.mode_and_key.2
  hasher _ := hasherInv_of_fresh rfl rfl

/-- Input absorbed without an overflow keeps the invariant: TreeUpdate leaves MODE_FLAGS, KEY_WORDS and FATAL, and
keeps what holds of the hasher registers. -/
theorem Inv.treeUpdate {data : List Byte} {s u : State} (hs : Inv s) (hf : s.fatal = false)
    (hu : treeUpdate data s = .ok u) : Inv u := by
  have hframe := treeUpdate_frame hu
  have hmode : u.modeFlags = s.modeFlags := by rw [hframe]
  have hkey : u.keyWords = s.keyWords := by rw [hframe]
  refine ⟨hmode ▸ hs.legalMode, hmode ▸ hkey ▸ hs.plainKey, fun _ => ?_⟩
  -- An overflow is excluded by `hu`, so that `u` is the state the law gives.
  obtain ⟨-, he⟩ | ⟨-, v, hv, hi, -⟩ := treeUpdate_of_inv (data := data) (hs.hasher hf)
  · rw [he] at hu; cases hu
  · rw [hv] at hu; cases hu; exact hi

/-- After a stack overflow nothing is asked of the hasher registers (60 R803). -/
theorem Inv.stackOverflow {s : State} (hs : Inv s) : Inv (stackOverflow s) where
  legalMode := hs.legalMode
  plainKey := hs.plainKey
  hasher h := by cases h

/-- Every command keeps the invariant. -/
theorem Inv.execEffect {s t : State} {i : Instr} (hs : Inv s) (h : ExecEffect s t i) : Inv t := by
  cases h with
  | keeps h => exact hs.of_sameHasher h.hasher h.fatal
  | construct hc h => rw [h]; exact hc.inv
  | absorb hf hu h => rw [h]; exact (hs.treeUpdate hf hu).of_sameHasher (.refl _) rfl
  | overflow h => rw [h]; exact hs.stackOverflow
  | finalize hh hf _ _ => exact hs.of_sameHasher hh hf
  | squeeze hh hf _ _ => exact hs.of_sameHasher hh hf

/-- Settles O58, by cases on what a step can do. -/
theorem stepKeepsInvariant : Obligations.StepKeepsInvariant := by
  intro s t hs hstep
  cases step_effect hstep with
  | keeps h => exact hs.of_sameHasher h.hasher h.fatal
  | reset _ u h => rw [h]; exact inv_platformReset u
  | command i rest _ h =>
    have htaken : Inv { s with hostQueue := rest } := hs.of_sameHasher (.refl s) rfl
    exact htaken.execEffect h

end Sys2Proof.Machine
end

section
/-! Who writes MODE_FLAGS and KEY_WORDS, OUT_VALID and XOF_CTR, the chunk registers and the CV stack (10_state.md R110,
R111, R112, R121, R122). -/

namespace Sys2Proof.Machine

/-- The step of `s` runs one of the four commands that construct a hasher. -/
def StepConstructs (s : State) : Prop :=
  StepRuns s .init ∨ StepRuns s (.initKeyed 32) ∨ StepRuns s .initDerive ∨ StepRuns s .deriveCommit

theorem Constructs.stepConstructs {s u : State} {i : Instr} {key : Cv} {flags : Word} (h : Constructs u i key flags)
    (hr : StepRuns s i) : StepConstructs s := by
  cases h with
  | init => exact .inl hr
  | initKeyed => exact .inr (.inl hr)
  | initDerive => exact .inr (.inr (.inl hr))
  | deriveCommit => exact .inr (.inr (.inr hr))

/-- The writers of MODE_FLAGS and KEY_WORDS, over every step. -/
theorem step_mode_key {s t : State} (h : step s = .next t) :
    (t.modeFlags = s.modeFlags ∧ t.keyWords = s.keyWords) ∨ StepResets s ∨ StepConstructs s := by
  cases step_effect h with
  | keeps h => exact .inl h.hasher.mode_key
  | reset hr _ _ => exact .inr (.inl hr)
  | command i rest hr he =>
    cases he with
    | keeps h => exact .inl h.hasher.mode_key
    | construct hc _ => exact .inr (.inr (hc.stepConstructs hr))
    | absorb _ hu ht => rw [ht, treeUpdate_frame hu]; exact .inl ⟨rfl, rfl⟩
    | overflow ht => rw [ht]; exact .inl ⟨rfl, rfl⟩
    | finalize hh _ _ _ => exact .inl hh.mode_key
    | squeeze hh _ _ _ => exact .inl hh.mode_key

/-- The writers of the chunk registers and of the CV stack with its length, over every step. A construction leaves the
stack's entries (42 R601). -/
theorem step_chunk_stack {s t : State} (h : step s = .next t) :
    (t.chunk = s.chunk ∧ t.cvStack = s.cvStack ∧ t.cvStackLen = s.cvStackLen) ∨ StepResets s ∨
      (StepConstructs s ∧ t.cvStack = s.cvStack) ∨ ∃ len, StepRuns s (.update len) := by
  cases step_effect h with
  | keeps h => exact .inl h.hasher.chunk_stack
  | reset hr _ _ => exact .inr (.inl hr)
  | command i rest hr he =>
    cases he with
    | keeps h => exact .inl h.hasher.chunk_stack
    | construct hc ht => rw [ht]; exact .inr (.inr (.inl ⟨hc.stepConstructs hr, rfl⟩))
    | absorb _ _ _ => exact .inr (.inr (.inr ⟨_, hr⟩))
    | overflow _ => exact .inr (.inr (.inr ⟨_, hr⟩))
    | finalize hh _ _ _ => exact .inl hh.chunk_stack
    | squeeze hh _ _ _ => exact .inl hh.chunk_stack

/-- What each step makes of OUT_VALID and XOF_CTR. -/
theorem step_outputControl {s t : State} (h : step s = .next t) :
    (t.outValid = s.outValid ∧ t.xofCtr = s.xofCtr) ∨
    (StepResets s ∧ t.outValid = false ∧ t.xofCtr = 0) ∨
    (StepConstructs s ∧ t.outValid = false ∧ t.xofCtr = s.xofCtr) ∨
    (StepRuns s .finalize ∧ t.outValid = true ∧ t.xofCtr = 1) ∨
    (StepRuns s .squeeze ∧ t.outValid = s.outValid ∧ t.xofCtr = s.xofCtr + 1) := by
  cases step_effect h with
  | keeps h => exact .inl ⟨h.outValid, h.xofCtr⟩
  | reset hr _ ht => rw [ht]; exact .inr (.inl ⟨hr, rfl, rfl⟩)
  | command i rest hr he =>
    cases he with
    | keeps h => exact .inl ⟨h.outValid, h.xofCtr⟩
    | construct hc ht => rw [ht]; exact .inr (.inr (.inl ⟨hc.stepConstructs hr, rfl, rfl⟩))
    | absorb _ hu ht => rw [ht, treeUpdate_frame hu]; exact .inl ⟨rfl, rfl⟩
    | overflow ht => rw [ht]; exact .inl ⟨rfl, rfl⟩
    | finalize _ _ hv hx => exact .inr (.inr (.inr (.inl ⟨hr, hv, hx⟩)))
    | squeeze _ _ hv hx => exact .inr (.inr (.inr (.inr ⟨hr, hv, hx⟩)))

/-- Settles O51: every other step leaves both registers. -/
theorem onlyTheseStepsChangeModeOrKey : Obligations.OnlyTheseStepsChangeModeOrKey := by
  intro s t hstep hne
  obtain ⟨hm, hk⟩ | hr | hi | hi | hi | hi := step_mode_key hstep
  · exact (hne.elim (· hm) (· hk)).elim
  · exact .inl hr
  · exact .inr (.inl hi)
  · exact .inr (.inr (.inl ⟨32, hi⟩))
  · exact .inr (.inr (.inr (.inl hi)))
  · exact .inr (.inr (.inr (.inr hi)))

/-- Settles O53: each part excludes the steps whose OUT_VALID or XOF_CTR cannot be the one asked about. -/
theorem onlyTheseStepsChangeOutputControl : Obligations.OnlyTheseStepsChangeOutputControl := by
  refine ⟨fun s t hstep hs ht => ?_, fun s t hstep hs ht => ?_, fun s t hstep hne => ?_⟩
  · obtain ⟨hv, -⟩ | ⟨-, hv, -⟩ | ⟨-, hv, -⟩ | ⟨hr, -, -⟩ | ⟨-, hv, -⟩ := step_outputControl hstep
    · simp [hv, hs] at ht
    · simp [hv] at ht
    · simp [hv] at ht
    · exact hr
    · simp [hv, hs] at ht
  · obtain ⟨hv, -⟩ | ⟨hr, -, -⟩ | ⟨hc, -, -⟩ | ⟨-, hv, -⟩ | ⟨-, hv, -⟩ := step_outputControl hstep
    · simp [hv, hs] at ht
    · exact .inl hr
    · exact .inr hc
    · simp [hv] at ht
    · simp [hv, hs] at ht
  · obtain ⟨-, hx⟩ | ⟨hr, -, hx⟩ | ⟨-, -, hx⟩ | ⟨hr, -, hx⟩ | ⟨hr, -, hx⟩ := step_outputControl hstep
    · exact absurd hx hne
    · exact .inl ⟨hr, hx⟩
    · exact absurd hx hne
    · exact .inr (.inl ⟨hr, hx⟩)
    · exact .inr (.inr ⟨hr, hx⟩)

/-- Settles O54: every other step leaves the chunk registers and the stack, and a construction leaves its entries. -/
theorem onlyTheseStepsChangeChunkOrStack : Obligations.OnlyTheseStepsChangeChunkOrStack := by
  refine ⟨fun s t hstep hne => ?_, fun s t hstep hne => ?_⟩
  · obtain ⟨hc, -, hl⟩ | hr | ⟨hi | hi | hi | hi, -⟩ | hu := step_chunk_stack hstep
    · exact (hne.elim (· hc) (· hl)).elim
    · exact .inl hr
    · exact .inr (.inl hi)
    · exact .inr (.inr (.inl hi))
    · exact .inr (.inr (.inr (.inl hi)))
    · exact .inr (.inr (.inr (.inr (.inl hi))))
    · exact .inr (.inr (.inr (.inr (.inr hu))))
  · obtain ⟨-, hk, -⟩ | hr | ⟨-, hk⟩ | hu := step_chunk_stack hstep
    · exact absurd hk hne
    · exact .inl hr
    · exact absurd hk hne
    · exact .inr hu

end Sys2Proof.Machine
end

section
/-! What the host reads of the core: STATUS, CHUNK_INFO, STACK_INFO and the counters field by field (10_state.md R123 to
R127), their values after reset (R130), and what no read shows (R132). -/

namespace Sys2Proof.Machine

/-- Every register of the window reads 0 after reset (R130). -/
theorem readReg_reset (r : WindowReg) : readReg r State.reset = 0 := by
  cases r with
  | inData i => exact Vector.getElem_replicate i.isLt
  | outData i => exact Vector.getElem_replicate i.isLt
  | cmpCv i => exact Vector.getElem_replicate i.isLt
  | cmpM i => exact Vector.getElem_replicate i.isLt
  | cmpOut i => exact Vector.getElem_replicate i.isLt
  | _ => rfl

/-- Settles O18: the registers the host cannot read are seen in `State.reset`, the others are `readReg_reset`. -/
theorem resetValues : Obligations.ResetValues :=
  ⟨rfl, rfl, rfl, fun j => Vector.getElem_replicate j.isLt, rfl, rfl, rfl, rfl,
    fun i => Vector.getElem_replicate i.isLt, fun i => Vector.getElem_replicate i.isLt, rfl, rfl, rfl, rfl, rfl, rfl,
    fun i => Vector.getElem_replicate i.isLt, readReg_reset⟩

/-- A reserved field reads 0. -/
theorem extractLsb'_eq_zero {w n k : Nat} {a : BitVec w} (h : a.toNat / 2 ^ n % 2 ^ k = 0) : a.extractLsb' n k = 0 :=
  BitVec.eq_of_toNat_eq ((extractLsb'_toNat_eq a n k).trans (h.trans BitVec.toNat_zero.symm))

/-- Settles O15: the fields of STATUS are read off its number. -/
theorem statusFields : Obligations.StatusFields := by
  intro s
  have hw : (readReg .status s).toNat = _ := statusWord_toNat s
  have herr := s.err.code.isLt
  have hvalid := s.outValid.toNat_le
  have hfatal := s.fatal.toNat_le
  refine ⟨?_, ?_, ?_, ?_, ?_, ?_, readReg_reset .status⟩
  · have hcode : (readReg .status s).toNat % 16 = s.err.code.toNat := by omega
    rw [hcode]
    cases s.err <;> rfl
  · have hbit : (readReg .status s).toNat / 2 ^ 4 % 2 = s.outValid.toNat := by omega
    rw [getLsbD_eq_decide, hbit]
    cases s.outValid <;> rfl
  · have hbit : (readReg .status s).toNat / 2 ^ 5 % 2 = s.fatal.toNat := by omega
    rw [getLsbD_eq_decide, hbit]
    cases s.fatal <;> rfl
  · exact extractLsb'_eq_zero (by omega)
  · apply BitVec.eq_of_toNat_eq
    rw [extractLsb'_toNat_eq, extractLsb'_toNat_eq]
    omega
  · exact extractLsb'_eq_zero (by omega)

/-- Settles O16: the fields of CHUNK_INFO are read off its number. -/
theorem chunkInfoFields : Obligations.ChunkInfoFields := by
  intro s
  have hw : (readReg .chunkInfo s).toNat = _ := chunkInfoWord_toNat s.chunk
  have hlen := chunkLen_le s.chunk
  have hblock := s.chunk.blockLen.isLt
  have hblocks := s.chunk.blocksCompressed.isLt
  refine ⟨by omega, ?_, by omega, ?_, ?_, ?_, hlen, readReg_reset .chunkInfo⟩
  · rw [getLsbD_eq_decide, decide_eq_false_iff_not]
    omega
  · exact extractLsb'_eq_zero (by omega)
  · change _ = chunkLen s.chunk
    omega
  · exact extractLsb'_eq_zero (by omega)

/-- A 64-bit counter from the two words it is read as (00_scope.md R12). -/
theorem toNat_eq_hi32_lo32 (c : U64) : c.toNat = (hi32 c).toNat * 2 ^ 32 + (lo32 c).toNat := by
  have hc := c.isLt
  rw [hi32, lo32, extractLsb'_toNat_eq, extractLsb'_toNat_eq]
  omega

theorem stackInfoWord_toNat (s : State) : (stackInfoWord s).toNat = s.cvStackLen.val := by
  have hlen := s.cvStackLen.isLt
  rw [stackInfoWord, BitVec.toNat_ofNat]
  omega

/-- Settles O17: a bounded number stands in its word as itself, and a counter is its two halves. -/
theorem stackInfoAndCounterWords : Obligations.StackInfoAndCounterWords :=
  ⟨fun s => ⟨stackInfoWord_toNat s, Nat.le_of_lt_succ s.cvStackLen.isLt, toNat_eq_hi32_lo32 s.chunk.counter,
      toNat_eq_hi32_lo32 s.xofCtr⟩,
    readReg_reset .stackInfo, readReg_reset .chunkCtrLo, readReg_reset .chunkCtrHi, readReg_reset .xofCtrLo,
    readReg_reset .xofCtrHi⟩

/-- The step of a read. -/
theorem step_rd {s : State} {r : WindowReg} {rest : List HostEvent} (hq : s.hostQueue = rd r :: rest) :
    step s = .next (hostRead r { s with hostQueue := rest }) := by
  apply step_of_access hq
  simp only [rd, performEvent, locate_regOffset]

/-- No register shows the hidden state (R132): `readReg` has no arm that looks at it. -/
theorem readReg_of_hidden (r : WindowReg) (s : State) (key cv ocv kin : Cv) (buf : Bytes64) (stack : Vector Cv 54)
    (oblock : Block) (oblen oflags : Word) :
    readReg r { s with
        keyWords := key
        chunk := ⟨cv, buf, s.chunk.blockLen, s.chunk.blocksCompressed, s.chunk.counter⟩
        cvStack := stack
        outCv := ocv
        outBlock := oblock
        outBlen := oblen
        outFlags := oflags
        keyIn := kin } = readReg r s := by
  cases r <;> rfl

/-- Settles O14: both steps append what `readReg` gives, and that is the same. -/
theorem hiddenStateIsUnreadable : Obligations.HiddenStateIsUnreadable := by
  intro s r rest key cv ocv kin buf stack oblock oblen oflags t u hq ht hu
  rw [step_rd hq] at ht
  rw [step_rd (by exact hq)] at hu
  cases ht
  cases hu
  exact congrArg (fun v => s.hostReads ++ [v])
    (readReg_of_hidden r { s with hostQueue := rest } key cv ocv kin buf stack oblock oblen oflags)

end Sys2Proof.Machine
end

section
/-! The flags of each kind of node (10_state.md R132). -/

namespace Sys2Proof.Machine

/-- Settles O55: a legal mode has no bit among the low four, so that joining flags to it adds them. -/
theorem flagsTellNodeKinds : Obligations.FlagsTellNodeKinds := by
  intro m c hm start
  simp only [blockFlags, chunkOutputFlags, parentNodeFlags, rootBlockFlags, startFlag, start]
  obtain rfl | rfl | rfl | rfl := hm <;> split <;> decide

end Sys2Proof.Machine
end

section
/-! Where an access goes: the register map (20_memory.md R201), and the accesses that are refused (R206). -/

namespace Sys2Proof.Machine

theorem windowOffset_window_eq_none {off : Nat} (h : ¬off < 0x200) : windowOffset (.window off) = none := if_neg h

theorem locate_of_width {bits off : Nat} (hoff : off < 0x200) (hbits : bits ≠ 32) :
    locate bits (.window off) = .error .accessWidth := by
  simp only [locate, windowOffset_window hoff, if_pos hbits]

theorem locate_of_misaligned {off : Nat} (hoff : off < 0x200) (halign : off % 4 ≠ 0) :
    locate 32 (.window off) = .error .accessMisaligned := by
  simp only [locate, windowOffset_window hoff, ne_eq, not_true_eq_false, if_false, if_pos halign]

/-- Every aligned offset of the window is that of a register. -/
theorem exists_regOffset_eq {off : Nat} (hoff : off < 0x200) (halign : off % 4 = 0) : ∃ r, off = regOffset r := by
  refine ⟨regOfWord ⟨off / 4, by omega⟩, ?_⟩
  rw [regOffset_regOfWord, Nat.mul_div_cancel' (Nat.dvd_of_mod_eq_zero halign)]

theorem regOffset_lt (r : WindowReg) : regOffset r < 0x200 := by
  by_contra h
  have hloc := locate_regOffset r
  rw [locate_of_windowOffset_eq_none 32 (windowOffset_window_eq_none h)] at hloc
  cases hloc

theorem regOffset_aligned (r : WindowReg) : regOffset r % 4 = 0 := by
  by_contra h
  have hloc := locate_regOffset r
  rw [locate_of_misaligned (regOffset_lt r) h] at hloc
  cases hloc

/-- An access reaches the register whose offset it names, and no other. -/
theorem locate_eq_ok_iff (off : Nat) (r : WindowReg) : locate 32 (.window off) = .ok r ↔ off = regOffset r := by
  constructor
  · intro h
    by_cases hoff : off < 0x200
    · by_cases halign : off % 4 = 0
      · obtain ⟨r', rfl⟩ := exists_regOffset_eq hoff halign
        rw [locate_regOffset] at h
        cases h
        rfl
      · rw [locate_of_misaligned hoff halign] at h
        cases h
    · rw [locate_of_windowOffset_eq_none 32 (windowOffset_window_eq_none hoff)] at h
      cases h
  · rintro rfl
    exact locate_regOffset r

/-- The reserved words from 0x0F0. -/
theorem regOffset_reserved_low (i : Fin 4) : regOffset (.reserved (i.castLE (by decide))) = 0x0F0 + 4 * i.val :=
  if_pos i.isLt

/-- The reserved words from 0x180. -/
theorem regOffset_reserved_high (i : Fin 32) : regOffset (.reserved (i.natAdd 4)) = 0x180 + 4 * i.val := by
  simp only [regOffset, Fin.val_natAdd, Nat.not_lt.mpr (Nat.le_add_right 4 i.val), if_false, Nat.add_sub_cancel_left]

/-- Settles O9: every row of the table is `regOffset`, at which `locate` finds the register. -/
theorem registerMapIsOneToOne : Obligations.RegisterMapIsOneToOne := by
  refine ⟨locate_eq_ok_iff, fun off hoff halign => ?_, locate_regOffset .cmd, locate_regOffset .status,
    locate_regOffset .chunkInfo, locate_regOffset .stackInfo, locate_regOffset .chunkCtrLo,
    locate_regOffset .chunkCtrHi, locate_regOffset .xofCtrLo, locate_regOffset .xofCtrHi,
    fun i => locate_regOffset (.keyIn i), fun i => locate_regOffset (.inData i),
    fun i => locate_regOffset (.outData i), fun i => locate_regOffset (.cmpCv i), locate_regOffset .cmpCtrLo,
    locate_regOffset .cmpCtrHi, locate_regOffset .cmpBlen, locate_regOffset .cmpFlags,
    fun i => ⟨i.castLE (by decide), ?_⟩, fun i => locate_regOffset (.cmpM i), fun i => locate_regOffset (.cmpOut i),
    fun i => ⟨i.natAdd 4, ?_⟩⟩
  · obtain ⟨r, rfl⟩ := exists_regOffset_eq hoff halign
    exact ⟨r, locate_regOffset r⟩
  · exact (locate_eq_ok_iff _ _).mpr (regOffset_reserved_low i).symm
  · exact (locate_eq_ok_iff _ _).mpr (regOffset_reserved_high i).symm

end Sys2Proof.Machine
end

section
/-! The step of each kind of access: a refused one, a stored write, a write to CMD; and the order in which the events
are taken (20_memory.md R206 to R210). -/

namespace Sys2Proof.Machine

/-- An access that reaches no register is refused, a write as well as a read. -/
theorem step_of_locate_error {s : State} {bits : Nat} {addr : HostAddr} {v : Word} {rest : List HostEvent}
    {x : Refusal} (hl : locate bits addr = .error x)
    (hq : s.hostQueue = .write bits addr v :: rest ∨ s.hostQueue = .read bits addr :: rest) : step s = .refused x := by
  obtain hq | hq := hq <;> exact step_of_access hq (by simp only [performEvent, hl])

theorem hostWrite_of_ne_cmd {r : WindowReg} (hr : r ≠ .cmd) (v : Word) (s : State) :
    hostWrite r v s = .access (.next (writeReg r v s)) := by
  cases r with
  | cmd => exact absurd rfl hr
  | _ => rfl

/-- The step of a write other than to CMD. -/
theorem step_wr {s : State} {r : WindowReg} {v : Word} {rest : List HostEvent} (hr : r ≠ .cmd)
    (hq : s.hostQueue = wr r v :: rest) : step s = .next (writeReg r v { s with hostQueue := rest }) := by
  apply step_of_access hq
  simp only [wr, performEvent, locate_regOffset, hostWrite_of_ne_cmd hr]

/-- A write to CMD is decoded with its event taken off the queue. -/
theorem fetch_wr_cmd {s : State} {w : Word} {rest : List HostEvent} (hq : s.hostQueue = wr .cmd w :: rest) :
    fetch s = writeCmd w { s with hostQueue := rest } := by
  simp only [fetch, hq, wr, performEvent, locate_regOffset, hostWrite]

/-- The step of a write to CMD: an illegal word is reported, a legal one is a command, and neither is refused. -/
theorem step_wr_cmd_ne_refused {s : State} {w : Word} {rest : List HostEvent} (hq : s.hostQueue = wr .cmd w :: rest)
    (x : Refusal) : step s ≠ .refused x := by
  rw [step, fetch_wr_cmd hq, writeCmd]
  cases decode w with
  | error e => exact nofun
  | ok i =>
    obtain ⟨t, ht⟩ | ⟨len, -, hfault⟩ := exec_stops i { s with hostQueue := rest }
    · simp only [ht]; exact nofun
    · simp only [hfault]; exact nofun

/-- No write to a register is refused. -/
theorem step_wr_ne_refused {s : State} {r : WindowReg} {v : Word} {rest : List HostEvent}
    (hq : s.hostQueue = wr r v :: rest) (x : Refusal) : step s ≠ .refused x := by
  by_cases hr : r = .cmd
  · subst hr
    exact step_wr_cmd_ne_refused hq x
  · rw [step_wr hr hq]
    exact nofun

/-- Settles O8: `locate` refuses by width, then by alignment; every other offset is that of a register. -/
theorem onlyAlignedWordAccessesHaveAStep : Obligations.OnlyAlignedWordAccessesHaveAStep := by
  intro s bits off v rest hoff hq
  refine ⟨fun hbits => step_of_locate_error (locate_of_width hoff hbits) hq, ?_, ?_, ?_⟩
  · rintro rfl halign
    exact step_of_locate_error (locate_of_misaligned hoff halign) hq
  · rintro rfl halign hread
    obtain ⟨r, rfl⟩ := exists_regOffset_eq hoff halign
    exact ⟨_, step_rd hread⟩
  · rintro rfl halign x
    obtain ⟨r, rfl⟩ := exists_regOffset_eq hoff halign
    obtain hwrite | hread := hq
    · exact step_wr_ne_refused hwrite x
    · rw [step_rd hread]
      exact nofun

/-- What an event does to the host's two lists: the events still to come stay, and a read, alone, returns one value. -/
theorem EventEffect.host_lists {e : HostEvent} {s t : State} (h : EventEffect e s t) :
    t.hostQueue = s.hostQueue ∧
    ((∃ bits addr v, e = .read bits addr ∧ t.hostReads = s.hostReads ++ [v]) ∨
      ((∀ bits addr, e ≠ .read bits addr) ∧ t.hostReads = s.hostReads)) := by
  cases h with
  | command i hf h =>
    obtain ⟨hqueue, hreads⟩ := exec_keeps_host_lists i h
    refine ⟨hqueue, .inr ⟨?_, hreads⟩⟩
    -- A read performs its access at once, so it issues no command.
    rintro bits addr rfl
    cases hl : locate bits addr <;> simp only [performEvent, hl] at hf <;> cases hf
  | illegal _ _ _ he _ _ h => rw [he, h]; exact ⟨rfl, .inr ⟨nofun, rfl⟩⟩
  | store _ _ r v he _ _ h =>
    rw [he, h]
    exact ⟨writeReg_hostQueue r v s, .inr ⟨nofun, writeReg_hostReads r v s⟩⟩
  | load bits addr r he _ h => rw [h]; exact ⟨rfl, .inl ⟨bits, addr, readReg r s, he, rfl⟩⟩
  | reset he h => rw [he, h]; exact ⟨rfl, .inr ⟨nofun, rfl⟩⟩

/-- Settles O7: the step takes the first event off the queue, and the rest is that event's effect. -/
theorem stepTakesEventsInOrder : Obligations.StepTakesEventsInOrder := by
  refine ⟨fun s hq => by simp only [step, fetch, hq], fun s t e rest hq hstep => ?_⟩
  obtain ⟨hnil, -⟩ | ⟨e', rest', hq', -, heffect⟩ := step_cases hstep
  · rw [hq] at hnil
    cases hnil
  · rw [hq] at hq'
    cases hq'
    exact heffect.host_lists

end Sys2Proof.Machine
end

section
/-! What a read returns, also after a write (20_memory.md R201, R207, R208; 10_state.md R129). -/

namespace Sys2Proof.Machine

/-- No register shows the host's queue. -/
@[simp] theorem readReg_hostQueue (r : WindowReg) (s : State) (rest : List HostEvent) :
    readReg r { s with hostQueue := rest } = readReg r s := by
  cases r <;> rfl

/-- The step of a read, with the value it returns. -/
theorem step_rd_eq {s : State} {r : WindowReg} {rest : List HostEvent} (hq : s.hostQueue = rd r :: rest) :
    step s = .next { s with hostQueue := rest, hostReads := s.hostReads ++ [readReg r s] } := by
  rw [step_rd hq, hostRead, readReg_hostQueue]

/-- Settles O11: a read is `hostRead`, and the operand and result registers are fields of the state. -/
theorem readsHaveNoSideEffect : Obligations.ReadsHaveNoSideEffect :=
  ⟨fun _ _ _ hq => step_rd_eq hq, fun _ => ⟨fun _ => rfl, fun _ => rfl, fun _ => rfl, fun _ => rfl, rfl, rfl, rfl,
    rfl, fun _ => rfl⟩⟩

/-- An RW register reads back what was written to it. -/
theorem readReg_writeReg_self {r : WindowReg} (hr : isReadWrite r = true) (v : Word) (s : State) :
    readReg r (writeReg r v s) = v := by
  cases r with
  | inData i | cmpCv i | cmpM i => exact Vector.getElem_set_self i.isLt
  | cmpCtrLo | cmpCtrHi | cmpBlen | cmpFlags => rfl
  | _ => cases hr

/-- A write to a register that is not RW shows in no register: KEY_IN is write-only, the others ignore it. -/
theorem readReg_writeReg_of_not_readWrite {r : WindowReg} (hr : isReadWrite r = false) (r' : WindowReg) (v : Word)
    (s : State) : readReg r' (writeReg r v s) = readReg r' s := by
  cases r with
  | keyIn i => cases r' <;> rfl
  | inData _ | cmpCv _ | cmpM _ | cmpCtrLo | cmpCtrHi | cmpBlen | cmpFlags => cases hr
  | _ => rfl

/-- A write shows in no register but its own. -/
theorem readReg_writeReg_of_ne {r r' : WindowReg} (hne : r' ≠ r) (v : Word) (s : State) :
    readReg r' (writeReg r v s) = readReg r' s := by
  cases r with
  | inData i =>
    cases r' with
    | inData j => exact Vector.getElem_set_ne i.isLt j.isLt fun h => hne (congrArg _ (Fin.ext h.symm))
    | _ => rfl
  | cmpCv i =>
    cases r' with
    | cmpCv j => exact Vector.getElem_set_ne i.isLt j.isLt fun h => hne (congrArg _ (Fin.ext h.symm))
    | _ => rfl
  | cmpM i =>
    cases r' with
    | cmpM j => exact Vector.getElem_set_ne i.isLt j.isLt fun h => hne (congrArg _ (Fin.ext h.symm))
    | _ => rfl
  | cmpCtrLo => cases r' with | cmpCtrLo => exact absurd rfl hne | _ => rfl
  | cmpCtrHi => cases r' with | cmpCtrHi => exact absurd rfl hne | _ => rfl
  | cmpBlen => cases r' with | cmpBlen => exact absurd rfl hne | _ => rfl
  | cmpFlags => cases r' with | cmpFlags => exact absurd rfl hne | _ => rfl
  | _ => exact readReg_writeReg_of_not_readWrite rfl r' v s

theorem writeReg_keyIn_of_ne {r : WindowReg} (hr : ∀ i, r ≠ .keyIn i) (v : Word) (s : State) :
    (writeReg r v s).keyIn = s.keyIn := by
  cases r with
  | keyIn i => exact absurd rfl (hr i)
  | _ => rfl

/-- A write changes the operand registers alone. -/
theorem writeReg_frame (r : WindowReg) (v : Word) (s : State) :
    writeReg r v s = { s with
      keyIn := (writeReg r v s).keyIn
      inData := (writeReg r v s).inData
      cmpCv := (writeReg r v s).cmpCv
      cmpM := (writeReg r v s).cmpM
      cmpCtrLo := (writeReg r v s).cmpCtrLo
      cmpCtrHi := (writeReg r v s).cmpCtrHi
      cmpBlen := (writeReg r v s).cmpBlen
      cmpFlags := (writeReg r v s).cmpFlags } := by
  cases r <;> rfl

/-- Settles O12: the step is `writeReg`, and a read sees what it stored in its own register only. -/
theorem writesStoreInTheirRegisterOnly : Obligations.WritesStoreInTheirRegisterOnly := by
  intro s r v rest hr hq
  refine ⟨_, step_wr hr hq, fun hrw => readReg_writeReg_self hrw v _, fun hrw => ?_, fun r' hne => ?_, ?_,
    fun hkey => writeReg_keyIn_of_ne hkey v _, writeReg_frame r v { s with hostQueue := rest }⟩
  · rw [readReg_writeReg_of_not_readWrite hrw, readReg_hostQueue]
  · rw [readReg_writeReg_of_ne hne, readReg_hostQueue]
  · rintro i rfl
    rfl

end Sys2Proof.Machine
end

section
/-! The reserved, read-only and write-only offsets (20_memory.md R207). -/

namespace Sys2Proof.Machine

theorem ne_cmd_of_regOffset_pos {r : WindowReg} (h : 0 < regOffset r) : r ≠ .cmd := by
  rintro rfl
  cases h

/-- The registers at the write-only and the reserved offsets read 0. -/
theorem readReg_eq_zero {r : WindowReg}
    (h : (regOffset r = 0x000 ∨ 0x020 ≤ regOffset r ∧ regOffset r ≤ 0x03C) ∨
      0x0F0 ≤ regOffset r ∧ regOffset r ≤ 0x0FC ∨ 0x180 ≤ regOffset r ∧ regOffset r ≤ 0x1FC) (s : State) :
    readReg r s = 0 := by
  cases r with
  | cmd | keyIn _ | reserved _ => rfl
  | _ => simp only [regOffset] at h; omega

/-- The registers at the read-only and the reserved offsets ignore a write. -/
theorem writeReg_eq_self {r : WindowReg}
    (h : (0x004 ≤ regOffset r ∧ regOffset r ≤ 0x01C ∨ 0x080 ≤ regOffset r ∧ regOffset r ≤ 0x0BC ∨
        0x140 ≤ regOffset r ∧ regOffset r ≤ 0x17C) ∨
      0x0F0 ≤ regOffset r ∧ regOffset r ≤ 0x0FC ∨ 0x180 ≤ regOffset r ∧ regOffset r ≤ 0x1FC) (v : Word) (s : State) :
    writeReg r v s = s := by
  cases r with
  | keyIn _ | inData _ | cmpCv _ | cmpM _ | cmpCtrLo | cmpCtrHi | cmpBlen | cmpFlags =>
    simp only [regOffset] at h; omega
  | _ => rfl

/-- Settles O13: the offset is that of a register, which its range tells to read 0 or to ignore writes. -/
theorem reservedReadOnlyAndWriteOnlyOffsets : Obligations.ReservedReadOnlyAndWriteOnlyOffsets := by
  intro s off v rest halign
  refine ⟨fun hres => ⟨fun hq => ?_, fun hq => ?_⟩, fun hro hq => ?_, fun hwo hq => ?_⟩ <;>
    obtain ⟨r, rfl⟩ := exists_regOffset_eq (off := off) (by omega) halign
  · rw [step_rd_eq hq, readReg_eq_zero (.inr hres)]
  · rw [step_wr (ne_cmd_of_regOffset_pos (by omega)) hq, writeReg_eq_self (.inr hres)]
  · rw [step_wr (ne_cmd_of_regOffset_pos (by omega)) hq, writeReg_eq_self (.inl hro)]
  · rw [step_rd_eq hq, readReg_eq_zero (.inl hwo)]

end Sys2Proof.Machine
end

section
/-! The command word (30_encoding.md R300 to R307): its three fields as numbers, the operands and opcodes of the
commands, and the decoder and the encoder in terms of both. -/

namespace Sys2Proof.Machine

/-! ## The fields -/

theorem opField_toNat (w : Word) : (opField w).toNat = w.toNat % 256 := by
  simp only [opField, extractLsb'_toNat_eq, pow_zero, Nat.div_one, Nat.reducePow]

theorem lenField_toNat (w : Word) : (lenField w).toNat = w.toNat / 256 % 256 := extractLsb'_toNat_eq w 8 8

theorem rsvField_toNat (w : Word) : (rsvField w).toNat = w.toNat / 65536 := by
  have hw := w.isLt
  rw [rsvField, extractLsb'_toNat_eq]
  omega

theorem lenField_eq_zero_iff (w : Word) : lenField w = 0 ↔ w.toNat / 256 % 256 = 0 := by
  rw [← BitVec.toNat_inj, lenField_toNat]; rfl

theorem rsvField_eq_zero_iff (w : Word) : rsvField w = 0 ↔ w.toNat / 65536 = 0 := by
  rw [← BitVec.toNat_inj, rsvField_toNat]; rfl

/-! ## The operands and the rows of the commands -/

/-- LEN is the one thing that can be ill formed (R303). -/
theorem wf_iff_lenOperand_lt (i : Instr) : i.wf = true ↔ lenOperand i < 256 := by
  cases i with
  | initKeyed len | update len => exact decide_eq_true_iff
  | _ => exact iff_of_true rfl (by decide)

theorem opcode_mem_range (i : Instr) : 1 ≤ opcode i ∧ opcode i ≤ 8 := by
  cases i <;> simp only [opcode] <;> decide

/-- The rows of the table: eight opcodes, of which INIT_KEYED and UPDATE take any length (R302). -/
theorem exists_row_iff (op len : Nat) :
    (∃ i, opcode i = op ∧ lenOperand i = len) ↔ (1 ≤ op ∧ op ≤ 8) ∧ (len = 0 ∨ op = 2 ∨ op = 5) := by
  constructor
  · rintro ⟨i, rfl, rfl⟩
    refine ⟨opcode_mem_range i, ?_⟩
    cases i with
    | initKeyed len => exact .inr (.inl rfl)
    | update len => exact .inr (.inr rfl)
    | _ => exact .inl rfl
  · rintro ⟨⟨hlo, hhi⟩, hlen⟩
    have hzero (h : op ≠ 2 ∧ op ≠ 5) : 0 = len := by omega
    interval_cases op
    · exact ⟨.init, rfl, hzero (by decide)⟩
    · exact ⟨.initKeyed len, rfl, rfl⟩
    · exact ⟨.initDerive, rfl, hzero (by decide)⟩
    · exact ⟨.deriveCommit, rfl, hzero (by decide)⟩
    · exact ⟨.update len, rfl, rfl⟩
    · exact ⟨.finalize, rfl, hzero (by decide)⟩
    · exact ⟨.squeeze, rfl, hzero (by decide)⟩
    · exact ⟨.compress, rfl, hzero (by decide)⟩

/-! ## The decoder and the encoder -/

/-- To base 256, the encoding of a well-formed command has the digits LEN and OP (R300, R307). -/
theorem encode_toNat {i : Instr} (h : i.wf = true) : (encode i).toNat = lenOperand i * 256 + opcode i := by
  have hlen := (wf_iff_lenOperand_lt i).mp h
  have hop := opcode_mem_range i
  have hor := Nat.shiftLeft_add_eq_or_of_lt (i := 8) (b := opcode i) (by omega) (lenOperand i)
  rw [Nat.shiftLeft_eq] at hor
  simp only [encode, BitVec.toNat_or, BitVec.toNat_shiftLeft, BitVec.toNat_ofNat, Nat.shiftLeft_eq]
  rw [Nat.mod_eq_of_lt (by omega), Nat.mod_eq_of_lt (a := lenOperand i) (by omega), Nat.mod_eq_of_lt (by omega),
    Nat.or_comm, ← hor]

theorem withoutLength_eq_ok_iff (w : Word) (i j : Instr) :
    withoutLength w i = .ok j ↔ w.toNat / 256 % 256 = 0 ∧ i = j := by
  rw [withoutLength, ← lenField_eq_zero_iff]
  split
  next hlen => simp only [hlen, true_and, Except.ok.injEq]
  next hlen => exact iff_of_false nofun fun h => hlen h.1

/-- The one lemma about the decoder: RSV is 0, and OP and LEN are those of the command (R301 to R304). -/
theorem decode_eq_ok_iff (w : Word) (i : Instr) :
    decode w = .ok i ↔
      w.toNat / 65536 = 0 ∧ opcode i = w.toNat % 256 ∧ lenOperand i = w.toNat / 256 % 256 := by
  rw [← rsvField_eq_zero_iff, ← opField_toNat, ← lenField_toNat]
  constructor
  · intro h
    unfold decode at h
    split at h
    next hrsv =>
      refine ⟨hrsv, ?_⟩
      split at h
      case h_2 hop | h_5 hop => cases h; exact ⟨hop.symm, rfl⟩
      case h_9 => cases h
      all_goals
        rename_i hop
        obtain ⟨hlen, rfl⟩ := (withoutLength_eq_ok_iff ..).mp h
        exact ⟨hop.symm, (lenField_toNat w ▸ hlen).symm⟩
    next => cases h
  · rintro ⟨hrsv, hop, hlen⟩
    cases i with
    | initKeyed len | update len => simp only [decode, hrsv, if_true, ← hop, opcode, ← hlen, lenOperand]
    | _ =>
      simp only [decode, hrsv, if_true, ← hop, opcode]
      exact (withoutLength_eq_ok_iff ..).mpr ⟨(lenField_toNat w).symm.trans hlen.symm, rfl⟩

/-- Clauses (a), (b), (c) of R304 leave the words of the rows, and those alone. -/
theorem exists_decode_eq_ok_iff (w : Word) : (∃ i, decode w = .ok i) ↔ ¬IllegalWord w := by
  have hrow := exists_row_iff (w.toNat % 256) (w.toNat / 256 % 256)
  simp only [decode_eq_ok_iff, exists_and_left, hrow, IllegalWord]
  omega

/-- Settles O1: the fields of the encoding are the command's opcode and length. -/
theorem decodeOfEncodeIsIdentity : Obligations.DecodeOfEncodeIsIdentity := by
  intro i hwf
  have hlen := (wf_iff_lenOperand_lt i).mp hwf
  have hop := opcode_mem_range i
  rw [decode_eq_ok_iff, encode_toNat hwf]
  omega

/-- Settles O2: the three fields of a word are all its bits. -/
theorem encodeOfDecodeIsIdentity : Obligations.EncodeOfDecodeIsIdentity := by
  intro w i h
  obtain ⟨hrsv, hop, hlen⟩ := (decode_eq_ok_iff w i).mp h
  have hwf : i.wf = true := (wf_iff_lenOperand_lt i).mpr (by omega)
  refine ⟨hwf, BitVec.eq_of_toNat_eq ?_⟩
  rw [encode_toNat hwf]
  omega

/-- Settles O5: each legal word is the encoding of its command, and no row has the opcodes 0 and 9. -/
theorem tableWordsDecode : Obligations.TableWordsDecode :=
  ⟨decodeOfEncodeIsIdentity .init rfl, decodeOfEncodeIsIdentity (.initKeyed 32) rfl,
    decodeOfEncodeIsIdentity .initDerive rfl, decodeOfEncodeIsIdentity .deriveCommit rfl,
    decodeOfEncodeIsIdentity (.update 3) rfl, decodeOfEncodeIsIdentity .finalize rfl,
    decodeOfEncodeIsIdentity .squeeze rfl, decodeOfEncodeIsIdentity .compress rfl, rfl, rfl⟩

end Sys2Proof.Machine
end

section
/-! The rows of the opcode table as masks and matches (30_encoding.md R302). -/

namespace Sys2Proof.Machine

/-- A field that a mask leaves whole. -/
theorem extractLsb'_and_of_allOnes {w n k : Nat} (a : BitVec w) {m : BitVec w}
    (hm : m.extractLsb' n k = BitVec.allOnes k) : (a &&& m).extractLsb' n k = a.extractLsb' n k := by
  rw [BitVec.extractLsb'_and, hm, BitVec.and_allOnes]

/-- A row fixes OP (R302). -/
theorem opcode_of_row {w : Word} {i : Instr} (h : w &&& tableMask i = tableMatch i) : opcode i = w.toNat % 256 := by
  have hmask : opField (tableMask i) = BitVec.allOnes 8 := by cases i <;> simp only [tableMask] <;> decide
  have hmatch : (opField (tableMatch i)).toNat = opcode i := by cases i <;> simp only [tableMatch, opcode] <;> decide
  rw [← opField_toNat, ← hmatch, ← h]
  exact congrArg BitVec.toNat (extractLsb'_and_of_allOnes w hmask)

/-- A row fixes RSV to 0 (R302). -/
theorem rsvField_of_row {w : Word} {i : Instr} (h : w &&& tableMask i = tableMatch i) : w.toNat / 65536 = 0 := by
  have hmask : rsvField (tableMask i) = BitVec.allOnes 16 := by cases i <;> simp only [tableMask] <;> decide
  have hmatch : rsvField (tableMatch i) = 0 := by cases i <;> simp only [tableMatch] <;> decide
  rw [← rsvField_eq_zero_iff, ← hmatch, ← h]
  exact (extractLsb'_and_of_allOnes w hmask).symm

/-- A row fixes LEN to 0 unless its command takes one (R302). -/
theorem lenField_of_row {w : Word} {i : Instr} (h : w &&& tableMask i = tableMatch i) :
    w.toNat / 256 % 256 = 0 ∨ opcode i = 2 ∨ opcode i = 5 := by
  cases i with
  | initKeyed len => exact .inr (.inl rfl)
  | update len => exact .inr (.inr rfl)
  | _ =>
    have hw : w = tableMatch _ := BitVec.and_allOnes.symm.trans h
    exact .inl (hw ▸ rfl)

theorem encode_matches_row (i : Instr) : Laws.TableRow.Statement i := by
  cases i with
  | init => exact Laws.TableRow.init
  | initKeyed len => exact Laws.TableRow.initKeyed len
  | initDerive => exact Laws.TableRow.initDerive
  | deriveCommit => exact Laws.TableRow.deriveCommit
  | update len => exact Laws.TableRow.update len
  | finalize => exact Laws.TableRow.finalize
  | squeeze => exact Laws.TableRow.squeeze
  | compress => exact Laws.TableRow.compress

/-- Settles O4: an accepted word is an encoding, which matches its row; and a row's mask keeps OP and RSV. -/
theorem opcodeRowsAreDisjoint : Obligations.OpcodeRowsAreDisjoint := by
  refine ⟨fun w i h => ?_, fun w i j hi hj => ?_, fun w i h => ?_⟩
  · obtain ⟨hwf, rfl⟩ := encodeOfDecodeIsIdentity w i h
    exact (encode_matches_row i hwf).1
  · exact (opcode_of_row hi).trans (opcode_of_row hj).symm
  · have hop := opcode_of_row h
    obtain ⟨j, hj, hlen⟩ := (exists_row_iff (opcode i) (w.toNat / 256 % 256)).mpr
      ⟨opcode_mem_range i, lenField_of_row h⟩
    exact ⟨j, (decode_eq_ok_iff w j).mpr ⟨rsvField_of_row h, hj.trans hop, hlen⟩, hj⟩

end Sys2Proof.Machine
end

section
/-! The step of a word written to CMD (30_encoding.md R301, R304). -/

namespace Sys2Proof.Machine

theorem step_of_decode_ok {s : State} {w : Word} {rest : List HostEvent} {i : Instr} (hq : NextCommand s w rest)
    (hd : decode w = .ok i) : step s = exec i { s with hostQueue := rest } := by
  rw [step, fetch_wr_cmd hq, writeCmd, hd]

theorem step_of_decode_error {s : State} {w : Word} {rest : List HostEvent} {e : DecodeError}
    (hq : NextCommand s w rest) (hd : decode w = .error e) :
    step s = .next { s with hostQueue := rest, err := .illegalCommand } := by
  rw [step, fetch_wr_cmd hq, writeCmd, hd]; rfl

/-- Settles O3: the words that do not decode are the illegal ones. -/
theorem illegalWordsReportIllegalCommand : Obligations.IllegalWordsReportIllegalCommand := by
  intro s w rest hq
  refine ⟨fun hill => ?_, fun hleg => ?_, rfl⟩
  · cases hd : decode w with
    | ok i => exact absurd hill ((exists_decode_eq_ok_iff w).mp ⟨i, hd⟩)
    | error e => exact step_of_decode_error hq hd
  · obtain ⟨i, hd⟩ := (exists_decode_eq_ok_iff w).mpr hleg
    exact ⟨i, hd, step_of_decode_ok hq hd⟩

theorem nextCommand_withFetchWord (s : State) (w : Word) :
    NextCommand (s.withFetchWord 32 w.toNat) w s.hostQueue := by
  rw [NextCommand, State.withFetchWord_hostQueue, Nat.mod_eq_of_lt w.isLt, BitVec.ofNat_toNat, BitVec.setWidth_eq]

/-- Settles O6: the step of a legal word; the placed word is the next command. -/
theorem stepRunsDecodedCommand : Obligations.StepRunsDecodedCommand :=
  ⟨fun _ _ _ _ hq hd => step_of_decode_ok hq hd,
    fun s w _ hd => step_of_decode_ok (nextCommand_withFetchWord s w) hd⟩

end Sys2Proof.Machine
end

section
/-! G word by word, and that G calls on disjoint words commute (40_compression_core.md R403 to R405). -/

namespace Sys2Proof.Machine

theorem rotr_eq_rotateRight (x : Word) {n : Nat} (h : n < 32) : rotr x n = x.rotateRight n := by
  rw [rotr, BitVec.rotateRight_def, Nat.mod_eq_of_lt h]

/-! Vectors at an index in `Fin`, as G reads and writes its words. -/

theorem vector_ext_fin {α : Type} {n : Nat} {v w : Vector α n} (h : ∀ i : Fin n, v[i] = w[i]) : v = w :=
  Vector.ext fun i hi => h ⟨i, hi⟩

theorem getElem_ofFn_fin {α : Type} {n : Nat} (f : Fin n → α) (i : Fin n) : (Vector.ofFn f)[i] = f i :=
  Vector.getElem_ofFn i.isLt

theorem getElem_set_self_fin {α : Type} {n : Nat} (v : Vector α n) (i : Fin n) (x : α) : (v.set i x)[i] = x :=
  Vector.getElem_set_self i.isLt

theorem getElem_set_of_ne_fin {α : Type} {n : Nat} (v : Vector α n) {i j : Fin n} (x : α) (h : j ≠ i) :
    (v.set i x)[j] = v[j] :=
  Vector.getElem_set_ne i.isLt j.isLt fun hij => h (Fin.ext hij.symm)

/-- The frame of G (R404). -/
theorem getElem_mixG_of_notMem (s : Block) {a b c d i : Fin 16} (mx my : Word) (h : i ∉ [a, b, c, d]) :
    (mixG s a b c d mx my)[i] = s[i] := by
  simp only [List.mem_cons, List.not_mem_nil, or_false, not_or] at h
  obtain ⟨ha, hb, hc, hd⟩ := h
  simp only [mixG, getElem_set_of_ne_fin, ha, hb, hc, hd, ne_eq, not_false_eq_true]

/-- Settles O21: a word read in a step is the one last set, and no other word is set. -/
theorem mixGWritesFourWords : Obligations.MixGWritesFourWords := by
  intro s a b c d mx my hab hac had hbc hbd hcd
  refine ⟨?_, ?_, ?_, ?_, fun i ha hb hc hd => getElem_mixG_of_notMem s mx my (by simp [ha, hb, hc, hd])⟩ <;>
    simp only [mixG, rotr_eq_rotateRight, Nat.reduceLT, getElem_set_self_fin, getElem_set_of_ne_fin, hab, hac, had, hbc,
      hbd, hcd, hab.symm, hac.symm, had.symm, hbc.symm, hbd.symm, hcd.symm, ne_eq, not_false_eq_true]

/-- The words G writes depend on those four words alone. -/
theorem getElem_mixG_congr {s t : Block} {a b c d : Fin 16} (mx my : Word) (hnodup : [a, b, c, d].Nodup)
    (h : ∀ j ∈ [a, b, c, d], s[j] = t[j]) :
    ∀ i ∈ [a, b, c, d], (mixG s a b c d mx my)[i] = (mixG t a b c d mx my)[i] := by
  simp only [List.nodup_cons, List.mem_cons, List.not_mem_nil, or_false, not_or] at hnodup
  obtain ⟨⟨hab, hac, had⟩, ⟨hbc, hbd⟩, hcd, -⟩ := hnodup
  obtain ⟨hsa, hsb, hsc, hsd, -⟩ := mixGWritesFourWords s a b c d mx my hab hac had hbc hbd hcd
  obtain ⟨hta, htb, htc, htd, -⟩ := mixGWritesFourWords t a b c d mx my hab hac had hbc hbd hcd
  simp only [List.forall_mem_cons] at h ⊢
  obtain ⟨ha, hb, hc, hd, -⟩ := h
  rw [hsa, hsb, hsc, hsd, hta, htb, htc, htd, ha, hb, hc, hd]
  exact ⟨rfl, rfl, rfl, rfl, List.forall_mem_nil _⟩

/-- Off the words of one of two calls, that call may be made before or after the other. -/
theorem getElem_mixG_mixG_of_notMem (s : Block) {a b c d a' b' c' d' i : Fin 16} (mx my mx' my' : Word)
    (hd : [a, b, c, d].Nodup) (hdisj : [a, b, c, d].Disjoint [a', b', c', d']) (hi : i ∉ [a', b', c', d']) :
    (mixG (mixG s a b c d mx my) a' b' c' d' mx' my')[i] = (mixG (mixG s a' b' c' d' mx' my') a b c d mx my)[i] := by
  rw [getElem_mixG_of_notMem _ mx' my' hi]
  by_cases hm : i ∈ [a, b, c, d]
  · exact getElem_mixG_congr mx my hd (fun j hj => (getElem_mixG_of_notMem s mx' my' (hdisj hj)).symm) i hm
  · rw [getElem_mixG_of_notMem _ mx my hm, getElem_mixG_of_notMem _ mx my hm, getElem_mixG_of_notMem _ mx' my' hi]

/-- Settles O22: every word is off the words of one of the two calls. -/
theorem disjointMixGCommute : Obligations.DisjointMixGCommute := by
  intro s a b c d a' b' c' d' mx my mx' my' hnodup
  obtain ⟨hd, hd', hdisj⟩ := (List.nodup_append' (l₁ := [a, b, c, d])).mp hnodup
  refine vector_ext_fin fun i => ?_
  by_cases hm : i ∈ [a, b, c, d]
  · exact getElem_mixG_mixG_of_notMem s mx my mx' my' hd hdisj (hdisj hm)
  · exact (getElem_mixG_mixG_of_notMem s mx' my' mx my hd' hdisj.symm hm).symm

end Sys2Proof.Machine
end

section
/-! The rounds, and the message schedule table against the iterated permutation (R405 to R408). -/

namespace Sys2Proof.Machine

theorem getElem_permute (m : Block) (i : Fin 16) : (permute m)[i] = m[msgPermutation[i]] :=
  getElem_ofFn_fin _ i

theorem scheduleTable_zero (i : Fin 16) : scheduleTable[(0 : Fin 7)][i] = i := by
  revert i
  decide

theorem scheduleTable_succ (r : Fin 6) (i : Fin 16) :
    scheduleTable[r.succ][i] = scheduleTable[r.castSucc][msgPermutation[i]] := by
  revert r i
  decide

/-- Row r of the table is r permutations of the block (R407). -/
theorem getElem_iterate_permute (block : Block) (r : Fin 7) (i : Fin 16) :
    (permute^[r.val] block)[i] = block[scheduleTable[r][i]] := by
  induction r using Fin.induction generalizing i with
  | zero => simp only [scheduleTable_zero, Fin.val_zero, Function.iterate_zero, id_eq]
  | succ r ih =>
    calc (permute^[r.succ.val] block)[i]
      _ = (permute (permute^[r.val] block))[i] := by rw [Fin.val_succ, Function.iterate_succ_apply']
      _ = (permute^[r.val] block)[msgPermutation[i]] := getElem_permute _ i
      _ = block[scheduleTable[r.castSucc][msgPermutation[i]]] := ih _
      _ = block[scheduleTable[r.succ][i]] := by simp only [scheduleTable_succ]

theorem mixRounds_succ (n : Nat) (s m : Block) : mixRounds (n + 1) s m = mixRounds n (mixRound s m) (permute m) := by
  cases n <;> rfl

/-- Round r mixes in the block permuted r times (R408). -/
theorem mixRounds_eq_foldl (n : Nat) (s m : Block) :
    mixRounds n s m = (List.range n).foldl (fun s r => mixRound s (permute^[r] m)) s := by
  induction n generalizing s m with
  | zero => rfl
  | succ n ih =>
    rw [mixRounds_succ, ih, List.range_succ_eq_map, List.foldl_cons, List.foldl_map]
    rfl

/-- Settles O23: a row of the table is the row before it read through the permutation. -/
theorem scheduleTableEqualsIteratedPermutation : Obligations.ScheduleTableEqualsIteratedPermutation := by
  refine ⟨fun _ _ => rfl, rfl, getElem_permute, getElem_iterate_permute, fun s block => ?_⟩
  have hrow (r : Fin 7) : permute^[r.val] block = Vector.ofFn fun i : Fin 16 => block[scheduleTable[r][i]] :=
    vector_ext_fin fun i => by rw [getElem_iterate_permute, getElem_ofFn_fin]
  rw [mixRounds_eq_foldl, ← List.map_coe_finRange_eq_range, List.foldl_map]
  simp only [hrow]

end Sys2Proof.Machine
end

section
/-! compress and the command COMPRESS (R409 to R412). -/

namespace Sys2Proof.Machine

theorem getElem_feedForward_low (cv : Cv) (s : Block) (i : Fin 8) :
    (feedForward cv s)[i.val] = s[i.val] ^^^ s[i.val + 8] :=
  (Vector.getElem_ofFn _).trans (dif_pos i.isLt)

theorem getElem_feedForward_high (cv : Cv) (s : Block) (i : Fin 8) :
    (feedForward cv s)[i.val + 8] = s[i.val + 8] ^^^ cv[i] := by
  simp [feedForward]

/-- Settles O24: the initial state is a literal, a counter's halves are quotient and remainder, and the feed-forward is
read at both halves of its state. -/
theorem compressInitialisesAndFeedsForward : Obligations.CompressInitialisesAndFeedsForward := by
  refine ⟨rfl, fun cv block counter blockLen flags => ⟨?_, ?_, ?_, ?_, rfl, rfl, fun i => ?_⟩⟩
  · intro i
    fin_cases i <;> rfl
  · intro i
    fin_cases i <;> rfl
  · exact (extractLsb'_toNat_eq counter 0 32).trans (by rw [pow_zero, Nat.div_one])
  · have hlt := counter.isLt
    exact (extractLsb'_toNat_eq counter 32 32).trans (by omega)
  · rw [compressFn]
    exact ⟨getElem_feedForward_low cv _ i, getElem_feedForward_high cv _ i⟩

theorem compressCounter_eq (s : State) :
    compressCounter s = s.cmpCtrHi.setWidth 64 <<< 32 ||| s.cmpCtrLo.setWidth 64 := by
  rw [compressCounter, BitVec.append_def, BitVec.shiftLeftZeroExtend_eq, BitVec.setWidth'_eq]

theorem exec_compress (s : State) : exec .compress s = .next { s with
    cmpOut := compressFn s.cmpCv s.cmpM (s.cmpCtrHi.setWidth 64 <<< 32 ||| s.cmpCtrLo.setWidth 64) s.cmpBlen s.cmpFlags
    err := .ok } := by
  rw [← compressCounter_eq]
  rfl

/-- Settles O25: the second COMPRESS reads the operand registers that the first left. -/
theorem compressCommandWritesResult : Obligations.CompressCommandWritesResult :=
  ⟨decodeOfEncodeIsIdentity .compress rfl, fun s => ⟨exec_compress s, exec_compress _⟩⟩

end Sys2Proof.Machine
end

section
/-! UPDATE within one chunk is ChunkUpdate on the bytes it reads (42_tree_hasher.md R606, 20_memory.md R204); bytes that
fit in the current block are only buffered (41_chunk_accumulator.md R503). -/

namespace Sys2Proof.Machine

/-- UPDATE of bytes that TreeUpdate absorbs (42 R606). -/
theorem exec_update_of_ok {s u : State} {len : Nat} (hf : s.fatal = false) (hlen : len ≤ 64)
    (hu : treeUpdate (inputBytes len s) s = .ok u) : exec (.update len) s = .next (setErr .ok u) := by
  simp only [exec, execUpdate, hf, Bool.false_eq_true, if_false, Nat.not_lt.mpr hlen, hu, succeed]

/-- UPDATE within the chunk is ChunkUpdate, byte by byte. -/
theorem exec_update_of_room {s : State} {len : Nat} (hf : s.fatal = false) (hlen : len ≤ 64)
    (hroom : chunkLen s.chunk + len ≤ 1024) :
    exec (.update len) s =
      .next { s with chunk := (inputBytes len s).foldl (chunkByte s.modeFlags) s.chunk, err := .ok } := by
  refine exec_update_of_ok hf hlen ((treeUpdate_eq_foldlM _ s).trans (foldlM_absorbByte_of_room _ s ?_))
  rwa [inputBytes_length _ _ hlen]

/-- The bytes UPDATE absorbs are those of 20 R204. -/
theorem getD_inputBytes {s : State} {len : Nat} (k : Fin 64) (hk : k.val < len) :
    (inputBytes len s).getD k.val 0 = inputByte s k := by
  have hbyte := getElem?_leBytes s.inData.toList (k.val / 4) (k.val % 4)
    (by rw [Vector.length_toList]; omega) (Nat.mod_lt _ (by decide))
  rw [Nat.div_add_mod] at hbyte
  rw [inputBytes, List.getD_eq_getElem?_getD, List.getElem?_take_of_lt hk, hbyte, Option.getD_some,
    Vector.getElem_toList]
  rfl

/-- Buffering writes at BLOCK_LEN and after it (41 R503). -/
theorem getElem_fillBlock_buf (c : ChunkRegs) (bytes : List Byte) (j : Nat) (hj : j < 64) :
    (fillBlock c bytes).buf[j] =
      if c.blockLen.val ≤ j ∧ j < c.blockLen.val + bytes.length then bytes.getD (j - c.blockLen.val) 0
      else c.buf[j] :=
  getElem_writeBytes bytes c.buf c.blockLen.val j hj

/-- Settles O33: the bytes only fill the buffer, from BLOCK_LEN on. -/
theorem updateWithinBlockBuffersBytes : Obligations.UpdateWithinBlockBuffersBytes := by
  intro s len hf _ hfit
  have hcount := s.chunk.blocksCompressed.isLt
  have hbytes : (inputBytes len s).length = len := inputBytes_length len s (by omega)
  have hexec := exec_update_of_room hf (len := len) (by omega) (by rw [chunkLen]; omega)
  rw [foldl_chunkByte_fill _ _ _ (by rwa [hbytes])] at hexec
  refine ⟨_, hexec, rfl, rfl, rfl, rfl, ?_, fun j => ⟨fun hout => ?_, fun k hk hj => ?_⟩⟩
  · rw [fillBlock_blockLen _ _ (by rwa [hbytes]), hbytes]
  · exact (getElem_fillBlock_buf ..).trans (if_neg (by omega))
  · refine (getElem_fillBlock_buf ..).trans ((if_pos (by omega)).trans ?_)
    rw [hj, Nat.add_sub_cancel_left, getD_inputBytes k hk]

end Sys2Proof.Machine
end

section
/-! UPDATE past the end of the block, within the chunk (41_chunk_accumulator.md R502, R503, R506). -/

namespace Sys2Proof.Machine

/-- A byte that comes to a full block compresses it first (41 R503). -/
theorem foldl_chunkByte_of_full (mode : Word) {c : ChunkRegs} {bytes : List Byte} (hfull : c.blockLen.val = 64)
    (hne : bytes ≠ []) :
    bytes.foldl (chunkByte mode) c = bytes.foldl (chunkByte mode) (compressBlock mode c) := by
  cases bytes with
  | nil => exact absurd rfl hne
  | cons b bs =>
    have hempty : (compressBlock mode c).blockLen.val ≠ 64 := nofun
    simp only [List.foldl_cons, chunkByte, hfull, hempty, if_true, if_false]

/-- Bytes that pass the end of the block: `pre` fills it, it is compressed once, and `post` starts the next. -/
theorem foldl_chunkByte_append (mode : Word) (c : ChunkRegs) {pre post : List Byte}
    (hpre : c.blockLen.val + pre.length = 64) (hne : post ≠ []) (hpost : post.length ≤ 64) :
    (pre ++ post).foldl (chunkByte mode) c = fillBlock (compressBlock mode (fillBlock c pre)) post := by
  have hfull : (fillBlock c pre).blockLen.val = 64 := (fillBlock_blockLen c pre hpre.le).trans hpre
  rw [List.foldl_append, foldl_chunkByte_fill mode pre c hpre.le, foldl_chunkByte_of_full mode hfull hne,
    foldl_chunkByte_fill]
  exact (Nat.zero_add _).trans_le hpost

/-! A block is empty after its compression. -/

theorem fillBlock_compressBlock_blockLen (mode : Word) (c : ChunkRegs) {bytes : List Byte} (h : bytes.length ≤ 64) :
    (fillBlock (compressBlock mode c) bytes).blockLen.val = bytes.length :=
  (fillBlock_blockLen _ bytes ((Nat.zero_add _).trans_le h)).trans (Nat.zero_add _)

theorem getElem_fillBlock_compressBlock_buf (mode : Word) (c : ChunkRegs) (bytes : List Byte) (j : Nat) (hj : j < 64) :
    (fillBlock (compressBlock mode c) bytes).buf[j] = bytes.getD j 0 := by
  rw [getElem_fillBlock_buf]
  by_cases hin : j < bytes.length
  · exact if_pos ⟨Nat.zero_le j, hin.trans_eq (Nat.zero_add _).symm⟩
  · rw [if_neg fun h => hin (h.2.trans_eq (Nat.zero_add _)), List.getD_eq_default _ _ (Nat.le_of_not_lt hin)]
    exact Vector.getElem_replicate hj

theorem getD_drop_inputBytes {s : State} {len n : Nat} (j : Nat) (k : Fin 64) (hk : k.val < len) (hj : n + j = k.val) :
    ((inputBytes len s).drop n).getD j 0 = inputByte s k := by
  rw [List.getD_eq_getElem?_getD, List.getElem?_drop, hj, ← List.getD_eq_getElem?_getD, getD_inputBytes k hk]

/-- The block that UPDATE completes: what was buffered, then the first bytes of IN_DATA. -/
theorem fillBlock_inputBytes_buf {s : State} {full : Bytes64}
    (hold : ∀ j : Fin 64, j.val < s.chunk.blockLen.val → full[j] = s.chunk.buf[j])
    (hnew : ∀ j k : Fin 64, j.val = s.chunk.blockLen.val + k.val → full[j] = inputByte s k) :
    (fillBlock s.chunk (inputBytes (64 - s.chunk.blockLen.val) s)).buf = full := by
  have hlen := inputBytes_length (64 - s.chunk.blockLen.val) s (Nat.sub_le _ _)
  refine Vector.ext fun j hj => (getElem_fillBlock_buf ..).trans ?_
  by_cases hin : s.chunk.blockLen.val ≤ j
  · have hbyte := getD_inputBytes (s := s) (len := 64 - s.chunk.blockLen.val) ⟨j - s.chunk.blockLen.val, by omega⟩
      (Nat.sub_lt_sub_right hin hj)
    rw [if_pos (by omega), hbyte]
    exact (hnew ⟨j, hj⟩ _ (Nat.add_sub_cancel' hin).symm).symm
  · rw [if_neg (by omega)]
    exact (hold ⟨j, hj⟩ (Nat.lt_of_not_le hin)).symm

theorem inputBytes_eq_append_drop {s : State} {n len : Nat} (h : n ≤ len) :
    inputBytes len s = inputBytes n s ++ (inputBytes len s).drop n := by
  have htake : (inputBytes len s).take n = inputBytes n s := by
    rw [inputBytes, List.take_take, min_eq_left h, inputBytes]
  rw [← htake, List.take_append_drop]

/-- UPDATE past the end of the block, within the chunk: fill the block, compress it, buffer the rest (41 R503). -/
theorem exec_update_past_block {s : State} {len : Nat} (hf : s.fatal = false) (hlen : len ≤ 64)
    (hpast : 64 < s.chunk.blockLen.val + len) (hroom : chunkLen s.chunk + len ≤ 1024) :
    exec (.update len) s = .next { s with
      chunk := fillBlock (compressBlock s.modeFlags (fillBlock s.chunk (inputBytes (64 - s.chunk.blockLen.val) s)))
        ((inputBytes len s).drop (64 - s.chunk.blockLen.val))
      err := .ok } := by
  have hbl := s.chunk.blockLen.isLt
  have hfirst := inputBytes_length (64 - s.chunk.blockLen.val) s (Nat.sub_le _ _)
  have hrest : ((inputBytes len s).drop (64 - s.chunk.blockLen.val)).length = len - (64 - s.chunk.blockLen.val) := by
    rw [List.length_drop, inputBytes_length len s hlen]
  rw [exec_update_of_room hf hlen hroom, inputBytes_eq_append_drop (n := 64 - s.chunk.blockLen.val) (by omega),
    foldl_chunkByte_append _ _ (by omega) (List.ne_nil_of_length_pos (by omega)) (by omega),
    ← inputBytes_eq_append_drop (by omega)]

/-- Settles O34: the first bytes complete the block `full`, and the others are buffered after its compression. -/
theorem updatePastBlockCompressesIt : Obligations.UpdatePastBlockCompressesIt := by
  intro s len full hf hlen hpast hroom hold hnew
  have hbl := s.chunk.blockLen.isLt
  have hrest : ((inputBytes len s).drop (64 - s.chunk.blockLen.val)).length = s.chunk.blockLen.val + len - 64 := by
    rw [List.length_drop, inputBytes_length len s hlen]; omega
  have hlenAfter := fillBlock_compressBlock_blockLen s.modeFlags
    (fillBlock s.chunk (inputBytes (64 - s.chunk.blockLen.val) s)) (hrest.trans_le (by omega))
  refine ⟨_, exec_update_past_block hf hlen hpast hroom, rfl, ?_, ?_, rfl, hlenAfter.trans hrest,
    fun j => ⟨fun hj => ?_, fun k hj hk => ?_⟩⟩
  · rw [← fillBlock_inputBytes_buf hold hnew]
    rfl
  · simp only [chunkLen] at hroom
    exact Nat.mod_eq_of_lt (by omega : s.chunk.blocksCompressed.val + 1 < 16)
  · exact (getElem_fillBlock_compressBlock_buf ..).trans (List.getD_eq_default _ _ (hlenAfter.symm.trans_le hj))
  · replace hj := hj.trans_eq (hlenAfter.trans hrest)
    exact (getElem_fillBlock_compressBlock_buf ..).trans (getD_drop_inputBytes _ k (by omega) (by omega))

end Sys2Proof.Machine
end

section
/-! AddChunkCV on a stack of complete subtrees (42_tree_hasher.md R608, R611), and the walk up the right edge
(43_output_finalizer.md R704), on the stack's entries as a list. -/

namespace Sys2Proof.Machine

/-- The top entry stands on the entries below it. -/
theorem take_succ_toList (stack : Vector Cv 54) {len : Nat} (h : len < 54) :
    stack.toList.take (len + 1) = stack.toList.take len ++ [stack[len]] := by
  rw [← List.reverse_inj, take_succ_reverse stack len h, List.reverse_concat]

/-- A push leaves the entries below it. -/
theorem take_succ_toList_set (stack : Vector Cv 54) {len : Nat} (cv : Cv) (h : len < 54) :
    (stack.set len cv).toList.take (len + 1) = stack.toList.take len ++ [cv] := by
  rw [take_succ_toList _ h, Vector.getElem_set_self, Vector.toList_set, List.take_set_of_le le_rfl]

/-- What AddChunkCV leaves on the stack when it succeeds: the result of the merge, with its last value on top. -/
theorem stackEntries_addChunkCv {s t : State} {cv top : Cv} {n : U64} {es : List Cv} (h : addChunkCv cv n s = .ok t)
    (hm : mergeList s.keyWords s.modeFlags (stackEntries s).reverse cv n.toNat = some (es, top)) :
    stackEntries t = es.reverse ++ [top] := by
  rw [stackEntries, mergeSubtrees_eq_mergeList _ _ _ _ (Nat.le_of_lt_succ s.cvStackLen.isLt)] at hm
  unfold addChunkCv at h
  split at h
  next => cases h
  next len cv' hms =>
    rw [hms] at hm
    cases hm
    split at h
    next => cases h
    next hroom =>
      cases h
      rw [List.reverse_reverse]
      exact take_succ_toList_set _ _ (by omega)

/-- AddChunkCV keeps the stack of complete subtrees (R611). -/
theorem stackEntries_addChunkCv_of_subtrees {s t : State} {cv : Cv} {n : U64} {cvs : List Cv}
    (hn : n.toNat = cvs.length + 1) (hlt : n.toNat < 2 ^ 55)
    (hs : stackEntries s = subtrees s.keyWords s.modeFlags 55 cvs) (h : addChunkCv cv n s = .ok t) :
    stackEntries t = subtrees s.keyWords s.modeFlags 55 (cvs ++ [cv]) := by
  obtain ⟨es, top, hm, hes⟩ := mergeList_partial s.keyWords s.modeFlags 55 cvs [] cv n.toNat (hn ▸ hlt)
    ((Nat.mod_eq_of_lt hlt).trans hn)
  rw [List.append_nil, List.append_nil, ← hs] at hm
  rw [stackEntries_addChunkCv h hm, hes]

/-- The walk from the top of the stack is a fold over the entries, the top first. -/
theorem ascend_eq_foldr (key : Cv) (mode : Word) (stack : Vector Cv 54) (j : Nat) (h : j ≤ 54) (o : Output) :
    ascend key mode stack j h o =
      (stack.toList.take j).foldr (fun left o => parentOutput key mode left (chainingValue o)) o := by
  induction j generalizing o with
  | zero => rfl
  | succ j ih =>
    rw [ascend, ih, take_succ_toList stack h, List.foldr_append]
    rfl

theorem rootOutput_eq_foldr (s : State) :
    rootOutput s =
      (stackEntries s).foldr (fun left o => parentOutput s.keyWords s.modeFlags left (chainingValue o))
        (chunkOutput s.modeFlags s.chunk) :=
  ascend_eq_foldr ..

end Sys2Proof.Machine
end

section
/-! Making room for a byte, and absorbing it (42_tree_hasher.md R607): frames and the effect on the stack. -/

namespace Sys2Proof.Machine

theorem chunkByte_counter (mode : Word) (c : ChunkRegs) (x : Byte) : (chunkByte mode c x).counter = c.counter := by
  rw [chunkByte]; split <;> rfl

theorem foldl_chunkByte_counter (mode : Word) (bytes : List Byte) (c : ChunkRegs) :
    (bytes.foldl (chunkByte mode) c).counter = c.counter := by
  induction bytes generalizing c with
  | nil => rfl
  | cons x bytes ih => rw [List.foldl_cons, ih, chunkByte_counter]

/-- A full chunk is merged with its chaining value under the new total, and nothing else touches the stack (R607). -/
theorem makeRoom_of_full {t v : State} (hfull : chunkLen t.chunk = 1024) (hv : makeRoom t = .ok v) :
    ∃ u, addChunkCv (chainingValue (chunkOutput t.modeFlags t.chunk)) (t.chunk.counter + 1) t = .ok u ∧
      stackEntries v = stackEntries u := by
  rw [makeRoom, if_pos hfull, completeChunk] at hv
  split at hv
  next => cases hv
  next u hu => cases hv; exact ⟨u, hu, rfl⟩

theorem makeRoom_frame {t v : State} (hv : makeRoom t = .ok v) :
    v.fatal = t.fatal ∧ v.keyWords = t.keyWords ∧ v.modeFlags = t.modeFlags := by
  obtain ⟨-, rfl⟩ | ⟨-, hv⟩ := makeRoom_cases hv
  · exact ⟨rfl, rfl, rfl⟩
  · rw [hv]; exact ⟨rfl, rfl, rfl⟩

theorem absorbByte_of_makeRoom {t v : State} (x : Byte) (hv : makeRoom t = .ok v) :
    absorbByte t x = .ok { v with chunk := chunkByte v.modeFlags v.chunk x } := by
  simp only [absorbByte, hv, chunkByte]

end Sys2Proof.Machine
end

section
/-! The completed chunks of a byte string (42_tree_hasher.md R607), and what one byte more makes of them. -/

namespace Sys2Proof.Machine

/-- The chaining value of chunk `i` of the byte string `b`, for a chunk that is complete. -/
def chunkCvAt (key : Cv) (mode : Word) (b : List Byte) (i : Nat) : Cv :=
  chainingValue (chunkOutputOf key mode i ((b.drop (1024 * i)).take 1024))

theorem chunkCvs_eq_map (key : Cv) (mode : Word) (b : List Byte) :
    chunkCvs key mode b = (List.range (completedChunks b.length)).map (chunkCvAt key mode b) := rfl

@[simp] theorem chunkCvs_length (key : Cv) (mode : Word) (b : List Byte) :
    (chunkCvs key mode b).length = completedChunks b.length := by
  rw [chunkCvs_eq_map, List.length_map, List.length_range]

/-- Bytes that follow a chunk's end do not change its chaining value. -/
theorem chunkCvAt_append (key : Cv) (mode : Word) (b c : List Byte) {i : Nat} (h : 1024 * (i + 1) ≤ b.length) :
    chunkCvAt key mode (b ++ c) i = chunkCvAt key mode b i := by
  rw [chunkCvAt, List.drop_append_of_le_length (by omega),
    List.take_append_of_le_length (by rw [List.length_drop]; omega), chunkCvAt]

/-- The current chunk of `b` holds at most 1024 bytes. -/
theorem le_mul_completedChunks_add (n : Nat) : n ≤ 1024 * completedChunks n + 1024 := by
  rw [completedChunks]; omega

theorem mul_completedChunks_le (n : Nat) : 1024 * completedChunks n ≤ n := by
  rw [completedChunks]; omega

/-- A byte that the current chunk has room for completes none. -/
theorem completedChunks_succ_of_room {n : Nat} (h : n < 1024 * completedChunks n + 1024) :
    completedChunks (n + 1) = completedChunks n := by
  simp only [completedChunks] at *; omega

/-- A byte that comes to a full chunk completes it (R607). -/
theorem completedChunks_succ_of_full {n : Nat} (h : n = 1024 * completedChunks n + 1024) :
    completedChunks (n + 1) = completedChunks n + 1 := by
  simp only [completedChunks] at *; omega

/-- Within the stack limit of 2^55 − 1 full chunks, fewer are complete (42 R612). -/
theorem completedChunks_lt {n : Nat} (h : n ≤ 1024 * (2 ^ 55 - 1)) : completedChunks n < 2 ^ 55 - 1 := by
  rw [completedChunks]; omega

/-- Bytes to come leave the chaining values of the completed chunks. -/
theorem map_chunkCvAt_append (key : Cv) (mode : Word) (b c : List Byte) :
    (List.range (completedChunks b.length)).map (chunkCvAt key mode (b ++ c)) = chunkCvs key mode b := by
  have hle := mul_completedChunks_le b.length
  refine List.map_congr_left fun i hi => chunkCvAt_append key mode b c ?_
  have := List.mem_range.mp hi
  omega

theorem chunkCvs_append_of_room (key : Cv) (mode : Word) (b : List Byte) (x : Byte)
    (h : b.length < 1024 * completedChunks b.length + 1024) :
    chunkCvs key mode (b ++ [x]) = chunkCvs key mode b := by
  rw [chunkCvs_eq_map, List.length_append, List.length_singleton, completedChunks_succ_of_room h,
    map_chunkCvAt_append]

theorem chunkCvs_append_of_full (key : Cv) (mode : Word) (b : List Byte) (x : Byte)
    (h : b.length = 1024 * completedChunks b.length + 1024) :
    chunkCvs key mode (b ++ [x]) = chunkCvs key mode b ++ [chainingValue (lastChunkOutput key mode b)] := by
  have hlast : chunkCvAt key mode b (completedChunks b.length) = chainingValue (lastChunkOutput key mode b) := by
    rw [chunkCvAt, List.take_of_length_le (by rw [List.length_drop]; omega), lastChunkOutput]
  rw [chunkCvs_eq_map, List.length_append, List.length_singleton, completedChunks_succ_of_full h, List.range_succ,
    List.map_append, map_chunkCvAt_append, List.map_singleton, chunkCvAt_append _ _ _ _ h.ge, hlast]

end Sys2Proof.Machine
end

section
/-! The hasher that has absorbed a byte string: its registers are those the whole string determines, and each byte
absorbed keeps them so. -/

namespace Sys2Proof.Machine

/-- The current chunk of the byte string `b`, as chunk registers. -/
def currentChunk (key : Cv) (mode : Word) (b : List Byte) : ChunkRegs :=
  (b.drop (1024 * completedChunks b.length)).foldl (chunkByte mode)
    (chunkInit key (BitVec.ofNat 64 (completedChunks b.length)))

theorem chunkLen_currentChunk (key : Cv) (mode : Word) (b : List Byte) :
    chunkLen (currentChunk key mode b) = b.length - 1024 * completedChunks b.length := by
  have hle := le_mul_completedChunks_add b.length
  rw [currentChunk, chunkLen_foldl, chunkLen_chunkInit, Nat.zero_add, List.length_drop]
  rw [chunkLen_chunkInit, List.length_drop]
  omega

theorem currentChunk_counter (key : Cv) (mode : Word) (b : List Byte) :
    (currentChunk key mode b).counter = BitVec.ofNat 64 (completedChunks b.length) := by
  rw [currentChunk, foldl_chunkByte_counter]
  rfl

/-- The current chunk's Output is that of its bytes (R504). -/
theorem chunkOutput_currentChunk (key : Cv) (mode : Word) (b : List Byte) :
    chunkOutput mode (currentChunk key mode b) = lastChunkOutput key mode b := by
  have hle := le_mul_completedChunks_add b.length
  exact chunkOutput_eq_chunkOutputOf key mode _ _ (by rw [List.length_drop]; omega)

theorem currentChunk_append_of_room (key : Cv) (mode : Word) (b : List Byte) (x : Byte)
    (h : b.length < 1024 * completedChunks b.length + 1024) :
    currentChunk key mode (b ++ [x]) = chunkByte mode (currentChunk key mode b) x := by
  rw [currentChunk, List.length_append, List.length_singleton, completedChunks_succ_of_room h,
    List.drop_append_of_le_length (mul_completedChunks_le _), List.foldl_append]
  rfl

theorem currentChunk_append_of_full (key : Cv) (mode : Word) (b : List Byte) (x : Byte)
    (h : b.length = 1024 * completedChunks b.length + 1024) :
    currentChunk key mode (b ++ [x]) =
      chunkByte mode (chunkInit key (BitVec.ofNat 64 (completedChunks b.length + 1))) x := by
  rw [currentChunk, List.length_append, List.length_singleton, completedChunks_succ_of_full h, Nat.mul_succ, ← h,
    List.drop_left]
  rfl

/-- The hasher of `t`, with the given key and mode, has absorbed exactly the bytes `b`. -/
structure Absorbed (key : Cv) (mode : Word) (b : List Byte) (t : State) : Prop where
  running : t.fatal = false
  keyWords : t.keyWords = key
  modeFlags : t.modeFlags = mode
  inv : HasherInv t
  chunk : t.chunk = currentChunk key mode b
  stack : stackEntries t = subtrees key mode 55 (chunkCvs key mode b)

/-- IN_DATA and STATUS.ERR are no part of the hasher. -/
theorem Absorbed.withInput {key : Cv} {mode : Word} {b : List Byte} {t : State} (h : Absorbed key mode b t)
    (data : Block) (e : ErrCode) : Absorbed key mode b { t with inData := data, err := e } where
  running := h.running
  keyWords := h.keyWords
  modeFlags := h.modeFlags
  inv := ⟨h.inv.stackLen, h.inv.counterRange, h.inv.zeroPadded, h.inv.lastBlockKept, h.inv.firstBlockCv⟩
  chunk := h.chunk
  stack := h.stack

/-- A freshly constructed hasher has absorbed nothing. -/
theorem absorbed_nil {s : State} (hf : s.fatal = false) (hc : s.chunk = chunkInit s.keyWords 0)
    (hl : s.cvStackLen.val = 0) : Absorbed s.keyWords s.modeFlags [] s where
  running := hf
  keyWords := rfl
  modeFlags := rfl
  inv := hasherInv_of_fresh hc (Fin.ext hl)
  chunk := hc
  stack := by rw [stackEntries, hl]; exact (subtrees_nil s.keyWords s.modeFlags 55).symm

section
variable {key : Cv} {mode : Word} {b : List Byte} {t v : State}

theorem Absorbed.chunkLen_eq (h : Absorbed key mode b t) :
    chunkLen t.chunk = b.length - 1024 * completedChunks b.length := by
  rw [h.chunk, chunkLen_currentChunk]

theorem Absorbed.counter_eq (h : Absorbed key mode b t) :
    t.chunk.counter = BitVec.ofNat 64 (completedChunks b.length) := by
  rw [h.chunk, currentChunk_counter]

theorem Absorbed.counter_toNat (h : Absorbed key mode b t) (hb : b.length ≤ 1024 * (2 ^ 55 - 1)) :
    t.chunk.counter.toNat = completedChunks b.length := by
  have hlt := completedChunks_lt hb
  rw [h.counter_eq, BitVec.toNat_ofNat, Nat.mod_eq_of_lt (by omega)]

theorem Absorbed.absorbedBytes_eq (h : Absorbed key mode b t) (hb : b.length ≤ 1024 * (2 ^ 55 - 1)) :
    absorbedBytes t = b.length := by
  rw [absorbedBytes, h.counter_toNat hb, h.chunkLen_eq, Nat.add_sub_cancel' (mul_completedChunks_le _)]

theorem Absorbed.rootOutput_eq (h : Absorbed key mode b t) : rootOutput t = rootOutputOf key mode b := by
  rw [rootOutput_eq_foldr, h.stack, h.chunk, h.keyWords, h.modeFlags, chunkOutput_currentChunk]
  rfl

/-- Room is made for a byte to come: the chunk registers are then those of the string with that byte, but for it. -/
theorem Absorbed.chunkByte_makeRoom (h : Absorbed key mode b t) (x : Byte) (hv : makeRoom t = .ok v) :
    chunkByte mode v.chunk x = currentChunk key mode (b ++ [x]) := by
  have hlen := h.chunkLen_eq
  obtain ⟨hroom, rfl⟩ | ⟨hfull, hv⟩ := makeRoom_cases hv
  · rw [h.chunk, currentChunk_append_of_room _ _ _ _ (by omega)]
  · have hfresh : v.chunk = chunkInit t.keyWords (t.chunk.counter + 1) := congrArg State.chunk hv
    rw [hfresh, h.keyWords, h.counter_eq, currentChunk_append_of_full _ _ _ _ (by omega), BitVec.ofNat_add]
    rfl

/-- The stack then holds the subtrees of the chunks that the string with that byte has completed. -/
theorem Absorbed.stackEntries_makeRoom (h : Absorbed key mode b t) (hb : b.length ≤ 1024 * (2 ^ 55 - 1)) (x : Byte)
    (hv : makeRoom t = .ok v) : stackEntries v = subtrees key mode 55 (chunkCvs key mode (b ++ [x])) := by
  have hlen := h.chunkLen_eq
  have hlt := completedChunks_lt hb
  obtain ⟨hroom, rfl⟩ | ⟨hfull, -⟩ := makeRoom_cases hv
  · rw [h.stack, chunkCvs_append_of_room _ _ _ _ (by omega)]
  · obtain ⟨u, hu, hvu⟩ := makeRoom_of_full hfull hv
    have hn := toNat_succ_of_le h.inv.counterRange
    rw [h.counter_toNat hb] at hn
    rw [← chunkCvs_length key mode] at hn hlt
    have hentries : stackEntries t = subtrees t.keyWords t.modeFlags 55 (chunkCvs key mode b) := by
      rw [h.keyWords, h.modeFlags, h.stack]
    have hlast : chunkOutput t.modeFlags t.chunk = lastChunkOutput key mode b := by
      rw [h.modeFlags, h.chunk, chunkOutput_currentChunk]
    rw [hvu, stackEntries_addChunkCv_of_subtrees hn (by omega) hentries hu, hlast, h.keyWords, h.modeFlags,
      chunkCvs_append_of_full _ _ _ _ (by omega)]

/-- One byte more, within the stack limit. -/
theorem Absorbed.exists_absorbByte (h : Absorbed key mode b t) (hb : b.length < 1024 * (2 ^ 55 - 1)) (x : Byte) :
    ∃ u, absorbByte t x = .ok u ∧ Absorbed key mode (b ++ [x]) u := by
  obtain ⟨hfull, -⟩ | ⟨-, v, hv, hcore, -⟩ := makeRoom_of_core h.inv.toCore
  · rw [h.absorbedBytes_eq hb.le] at hfull
    exact absurd hfull hb.ne
  · obtain ⟨hfatal, hkey, hmode⟩ := makeRoom_frame hv
    refine ⟨_, absorbByte_of_makeRoom x hv, ?_⟩
    exact
      { running := hfatal.trans h.running
        keyWords := hkey.trans h.keyWords
        modeFlags := hmode.trans h.modeFlags
        inv := hcore.withByte x (makeRoom_chunkLen_lt hv)
        chunk := by rw [hmode, h.modeFlags, h.chunkByte_makeRoom x hv]
        stack := h.stackEntries_makeRoom (v := v) hb.le x hv }

theorem Absorbed.exists_treeUpdate {data : List Byte} (h : Absorbed key mode b t)
    (hb : (b ++ data).length ≤ 1024 * (2 ^ 55 - 1)) :
    ∃ u, treeUpdate data t = .ok u ∧ Absorbed key mode (b ++ data) u := by
  rw [treeUpdate_eq_foldlM]
  induction data generalizing b t with
  | nil => exact ⟨t, rfl, by rwa [List.append_nil]⟩
  | cons x data ih =>
    rw [List.append_cons] at hb ⊢
    have hroom : b.length < 1024 * (2 ^ 55 - 1) := by
      simp only [List.length_append, List.length_singleton] at hb
      omega
    obtain ⟨u, hu, habs⟩ := h.exists_absorbByte hroom x
    obtain ⟨w, hw, habs'⟩ := ih habs hb
    exact ⟨w, by rw [List.foldlM_cons, hu]; exact hw, habs'⟩

theorem Absorbed.exists_absorbPiece {p : List Byte} (h : Absorbed key mode b t) (hp : p.length ≤ 64)
    (hb : (b ++ p).length ≤ 1024 * (2 ^ 55 - 1)) :
    ∃ u, absorbPiece t p = some u ∧ Absorbed key mode (b ++ p) u := by
  obtain ⟨u, hu, habs⟩ := (h.withInput (packBytes p) t.err).exists_treeUpdate hb
  refine ⟨setErr .ok u, ?_, habs.withInput u.inData .ok⟩
  have hread : inputBytes p.length { t with inData := packBytes p } = p := inputBytes_packBytes hp rfl
  have hexec : exec (.update p.length) { t with inData := packBytes p } = .next (setErr .ok u) :=
    exec_update_of_ok h.running hp (hread.symm ▸ hu)
  rw [absorbPiece, hexec]
  rfl

theorem Absorbed.exists_absorbPieces {ps : List (List Byte)} (h : Absorbed key mode b t)
    (hps : ∀ p ∈ ps, p.length ≤ 64) (hb : (b ++ ps.flatten).length ≤ 1024 * (2 ^ 55 - 1)) :
    ∃ u, absorbPieces t ps = some u ∧ Absorbed key mode (b ++ ps.flatten) u := by
  induction ps generalizing b t with
  | nil => exact ⟨t, rfl, by rwa [List.flatten_nil, List.append_nil]⟩
  | cons p ps ih =>
    obtain ⟨hp, hps⟩ := List.forall_mem_cons.mp hps
    rw [List.flatten_cons, ← List.append_assoc] at hb ⊢
    obtain ⟨u, hu, habs⟩ := h.exists_absorbPiece hp (by rw [List.length_append] at hb; omega)
    obtain ⟨w, hw, habs'⟩ := ih habs hps hb
    exact ⟨w, by rw [absorbPieces, List.foldlM_cons, hu]; exact hw, habs'⟩

end

/-- Settles O41: a fresh hasher has absorbed nothing, each piece keeps `Absorbed`, and the root Output, the counter and
the stack are read off it. -/
theorem machineHashesTheWholeInput : Obligations.MachineHashesTheWholeInput := by
  intro s ps hf hc hl hps hlen
  obtain ⟨t, ht, habs⟩ := (absorbed_nil hf hc hl).exists_absorbPieces hps hlen
  rw [List.nil_append] at habs
  exact ⟨t, ht, habs.rootOutput_eq, habs.counter_toNat hlen, habs.stack⟩

end Sys2Proof.Machine
end

section
/-! The exact answers of the tree hasher's constructions (42_tree_hasher.md R601 to R605). -/

namespace Sys2Proof.Machine

/-- A new chunk, register by register (41_chunk_accumulator.md R501). -/
theorem chunkInit_eq (key : Cv) (counter : U64) :
    chunkInit key counter = ⟨key, Vector.ofFn fun _ => 0, 0, 0, counter⟩ :=
  rfl

/-- A successful construction, register by register (42 R601, 60 R801). -/
theorem succeed_hasherInit (key : Cv) (flags : Word) (s : State) : succeed (hasherInit key flags s) = .next { s with
    modeFlags := flags
    keyWords := key
    chunk := ⟨key, Vector.ofFn fun _ => 0, 0, 0, 0⟩
    cvStackLen := 0
    outValid := false
    fatal := false
    err := .ok } := by
  rw [← chunkInit_eq]
  rfl

/-- Settles O26: INIT is the construction from the IV. -/
theorem initConstructsPlainHasher : Obligations.InitConstructsPlainHasher :=
  ⟨decodeOfEncodeIsIdentity .init rfl, fun s => succeed_hasherInit iv 0x00 s⟩

theorem exec_initKeyed_32 (s : State) : exec (.initKeyed 32) s = succeed (hasherInit s.keyIn keyedHash s) := rfl

theorem exec_initKeyed_of_ne {len : Nat} (h : len ≠ 32) (s : State) :
    exec (.initKeyed len) s = .next { s with err := .invalidKeyLength } :=
  if_pos h

/-- Settles O27: the operand check decides between the construction from KEY_IN and the error. -/
theorem initKeyedConstructsOrReportsKeyLength : Obligations.InitKeyedConstructsOrReportsKeyLength :=
  ⟨decodeOfEncodeIsIdentity (.initKeyed 32) rfl,
    fun s => (exec_initKeyed_32 s).trans (succeed_hasherInit s.keyIn keyedHash s),
    fun s _ h => exec_initKeyed_of_ne h s, rfl⟩

/-- Settles O28: INIT_DERIVE is the construction from the IV in the context mode. -/
theorem initDeriveConstructsContextHasher : Obligations.InitDeriveConstructsContextHasher :=
  ⟨decodeOfEncodeIsIdentity .initDerive rfl, fun s => succeed_hasherInit iv deriveKeyContext s⟩

theorem exec_deriveCommit_of_context {s : State} (hf : s.fatal = false) (hm : s.modeFlags = deriveKeyContext) :
    exec .deriveCommit s =
      succeed (hasherInit (first8Words (rootBlock (rootOutput s) 0)) deriveKeyMaterial s) :=
  (if_neg (ne_true_of_eq_false hf)).trans (if_neg (not_not_intro hm))

theorem exec_deriveCommit_of_ne_context {s : State} (hf : s.fatal = false) (hm : s.modeFlags ≠ deriveKeyContext) :
    exec .deriveCommit s = .next { s with err := .sequenceError } :=
  (if_neg (ne_true_of_eq_false hf)).trans (if_pos hm)

theorem getElem_first8Words (b : Block) (i : Fin 8) : (first8Words b)[i] = b[i.val] := Vector.getElem_ofFn _

/-- Settles O29: the commit is the construction from the context's digest; it leaves the context mode, so that a second
one is out of sequence. -/
theorem deriveCommitKeysMaterialHasher : Obligations.DeriveCommitKeysMaterialHasher := by
  refine ⟨decodeOfEncodeIsIdentity .deriveCommit rfl, fun s hf hm => ?_,
    fun s hf hm => exec_deriveCommit_of_ne_context hf hm, rfl⟩
  refine ⟨_, (exec_deriveCommit_of_context hf hm).trans (succeed_hasherInit _ _ s), getElem_first8Words _, ?_, ?_⟩
  · rw [← hf]
    rfl
  · exact exec_deriveCommit_of_ne_context rfl (by decide : deriveKeyMaterial ≠ deriveKeyContext)

end Sys2Proof.Machine
end

section
/-! From a state that meets the invariant no step ends in the model's fault (42_tree_hasher.md R608). -/

namespace Sys2Proof.Machine

/-- Only a command can end in a fault: every other step is an access, which stores, reads, resets or is refused. -/
theorem exists_exec_of_step_fault {s : State} {f : Fault} (h : step s = .fault f) :
    ∃ i rest, exec i { s with hostQueue := rest } = .fault f := by
  cases hq : s.hostQueue with
  | nil => simp only [step, fetch, hq] at h; cases h
  | cons e rest =>
    simp only [step, fetch, hq] at h
    cases e with
    | reset => cases h
    | read bits addr => cases hl : locate bits addr <;> simp only [performEvent, hl] at h <;> cases h
    | write bits addr w =>
      cases hl : locate bits addr with
      | error x => simp only [performEvent, hl] at h; cases h
      | ok r =>
        simp only [performEvent, hl] at h
        by_cases hr : r = .cmd
        · subst hr
          cases hd : decode w with
          | error x => simp only [hostWrite, writeCmd, hd] at h; cases h
          | ok i => simp only [hostWrite, writeCmd, hd] at h; exact ⟨i, rest, h⟩
        · simp only [hostWrite_of_ne_cmd hr] at h
          cases h

/-- UPDATE faults only when AddChunkCV pops from an empty stack (log 9). -/
theorem exec_update_fault {s : State} {len : Nat} {f : Fault} (h : exec (.update len) s = .fault f) :
    s.fatal = false ∧ treeUpdate (inputBytes len s) s = .error .underflow := by
  simp only [exec, execUpdate] at h
  split at h
  next => cases h
  next hf =>
    split at h
    next => cases h
    next =>
      split at h
      next => cases h
      next => cases h
      next hu => exact ⟨Bool.eq_false_of_not_eq_true hf, hu⟩

/-- Under the invariant TreeUpdate either absorbs its bytes or overflows, so no command faults. -/
theorem Inv.exec_ne_fault {s : State} (hs : Inv s) (i : Instr) (f : Fault) : exec i s ≠ .fault f := by
  intro h
  obtain ⟨t, ht⟩ | ⟨len, rfl, -⟩ := exec_stops i s
  · rw [ht] at h; cases h
  · obtain ⟨hf, hu⟩ := exec_update_fault h
    obtain ⟨-, he⟩ | ⟨-, t, he, -⟩ := treeUpdate_of_inv (data := inputBytes len s) (hs.hasher hf)
    · rw [he] at hu; cases hu
    · rw [he] at hu; cases hu

/-- Settles O59: a fault is a command's, and taking the event off the queue keeps the invariant. -/
theorem invariantExcludesFaults : Obligations.InvariantExcludesFaults := by
  intro s f hs hstep
  obtain ⟨i, rest, hexec⟩ := exists_exec_of_step_fault hstep
  have htaken : Inv { s with hostQueue := rest } := hs.of_sameHasher (.refl s) rfl
  exact htaken.exec_ne_fault i f hexec

end Sys2Proof.Machine
end

section
/-! AddChunkCV: one time round its loop, and the number of complete subtrees (42_tree_hasher.md R608 to R612). -/

namespace Sys2Proof.Machine

/-- An odd N with room on the stack: push (42 R608). -/
theorem addChunkCv_of_odd {s : State} (cv : Cv) {n : U64} (hn : n.toNat % 2 = 1) (h : s.cvStackLen.val < 54) :
    addChunkCv cv n s =
      .ok { s with
        cvStack := s.cvStack.set s.cvStackLen.val cv
        cvStackLen := ⟨s.cvStackLen.val + 1, by omega⟩ } := by
  rw [addChunkCv, mergeSubtrees_odd _ _ _ _ _ _ _ hn]
  exact dif_neg h.ne

theorem mergeSubtrees_even (key : Cv) (mode : Word) (stack : Vector Cv 54) (len : Nat) (h : len + 1 ≤ 54) (cv : Cv)
    {n : U64} (hn : n.toNat % 2 = 0) :
    mergeSubtrees key mode stack (len + 1) h cv n =
      mergeSubtrees key mode stack len (Nat.le_of_succ_le h) (parentCv key mode stack[len] cv) (n >>> 1) := by
  rw [mergeSubtrees, getLsbD_zero_eq_decide, hn]
  rfl

/-- An even N: pop the top entry as the left child and go on with the parent (42 R608). -/
theorem addChunkCv_of_even {s : State} (cv : Cv) {n : U64} {top : Fin 54} (hn : n.toNat % 2 = 0)
    (h : s.cvStackLen.val = top.val + 1) :
    addChunkCv cv n s =
      addChunkCv (parentCv s.keyWords s.modeFlags s.cvStack[top] cv) (n >>> 1)
        { s with cvStackLen := ⟨top.val, by omega⟩ } := by
  have hlen : s.cvStackLen = ⟨top.val + 1, by omega⟩ := Fin.ext h
  simp only [addChunkCv, hlen, mergeSubtrees_even _ _ _ _ _ _ hn]
  rfl

/-- Settles O38: one time round the loop for an odd and for an even N, and the overflow law. -/
theorem addChunkCvMergesThenPushes : Obligations.AddChunkCvMergesThenPushes :=
  ⟨fun _ _ _ _ => rfl, fun _ cv _ hn h => addChunkCv_of_odd cv hn h,
    fun s cv n hn h => (addChunkCv_overflow_iff cv n s).mpr ⟨h, hn⟩,
    fun _ cv _ _ hn h => addChunkCv_of_even cv hn h⟩

/-- A 1 bit above all others counts once. -/
theorem popcountBits_two_pow_add (k : Nat) {n : Nat} (h : n < 2 ^ k) :
    popcountBits (k + 1) (2 ^ k + n) = popcountBits k n + 1 := by
  induction k generalizing n with
  | zero =>
    obtain rfl : n = 0 := Nat.lt_one_iff.mp h
    rfl
  | succ k ih =>
    rw [Nat.pow_succ] at h ⊢
    have hlow : (2 ^ k * 2 + n) % 2 = n % 2 := by omega
    have hhigh : (2 ^ k * 2 + n) / 2 = 2 ^ k + n / 2 := by omega
    rw [popcountBits, hlow, hhigh, ih (by omega), popcountBits, Nat.add_assoc]

/-- There is one complete subtree for each 1 bit of the number of chunks (42 R611). -/
theorem subtrees_length (key : Cv) (mode : Word) (k : Nat) {cvs : List Cv} (h : cvs.length < 2 ^ k) :
    (subtrees key mode k cvs).length = popcountBits k cvs.length := by
  induction k generalizing cvs with
  | zero => rfl
  | succ k ih =>
    rw [Nat.pow_succ] at h
    rw [subtrees]
    by_cases hle : 2 ^ k ≤ cvs.length
    · have hrest : (cvs.drop (2 ^ k)).length < 2 ^ k := by rw [List.length_drop]; omega
      rw [if_pos hle, List.length_cons, ih hrest, ← popcountBits_two_pow_add k hrest, List.length_drop,
        Nat.add_sub_cancel' hle]
    · rw [if_neg hle, ih (Nat.lt_of_not_le hle), popcountBits_add 1 k _ (Nat.lt_of_not_le hle)]

theorem stackEntries_length (s : State) : (stackEntries s).length = s.cvStackLen.val := by
  rw [stackEntries, List.length_take, Vector.length_toList]
  exact Nat.min_eq_left (Nat.le_of_lt_succ s.cvStackLen.isLt)

/-- Settles O39: the merge keeps the complete subtrees, and their number is a popcount. -/
theorem addChunkCvKeepsCompleteSubtrees : Obligations.AddChunkCvKeepsCompleteSubtrees := by
  intro s t cv n cvs hn hlt hs h
  have hentries := stackEntries_addChunkCv_of_subtrees hn hlt hs h
  have hcount : (cvs ++ [cv]).length = n.toNat := by rw [List.length_append, List.length_singleton, hn]
  refine ⟨hentries, ?_⟩
  rw [← stackEntries_length, hentries, subtrees_length _ _ _ (hcount ▸ hlt), hcount, popcount_eq_55 n hlt]

end Sys2Proof.Machine
end

section
/-! The answers of UPDATE (42_tree_hasher.md R606, R612), and the bytes of IN_DATA it reads (20_memory.md R204). -/

namespace Sys2Proof.Machine

/-- UPDATE whose push finds 54 entries (42 R612). -/
theorem exec_update_of_overflow {s : State} {len : Nat} (hf : s.fatal = false) (hlen : len ≤ 64)
    (hu : treeUpdate (inputBytes len s) s = .error .overflow) : exec (.update len) s = .next (stackOverflow s) := by
  simp only [exec, execUpdate, hf, Bool.false_eq_true, if_false, Nat.not_lt.mpr hlen, hu]

theorem exec_update_of_underflow {s : State} {len : Nat} (hf : s.fatal = false) (hlen : len ≤ 64)
    (hu : treeUpdate (inputBytes len s) s = .error .underflow) : exec (.update len) s = .fault .cvStackUnderflow := by
  simp only [exec, execUpdate, hf, Bool.false_eq_true, if_false, Nat.not_lt.mpr hlen, hu]

theorem exec_update_of_fatal {s : State} (hf : s.fatal = true) (len : Nat) :
    exec (.update len) s = .next (setErr .fatalState s) :=
  if_pos hf

theorem exec_update_of_long {s : State} {len : Nat} (hf : s.fatal = false) (hlen : 64 < len) :
    exec (.update len) s = .next (setErr .badLength s) :=
  (if_neg (ne_true_of_eq_false hf)).trans (if_pos hlen)

/-- Settles O30: the length check; and no bytes leave the state as it is. -/
theorem updateChecksLength : Obligations.UpdateChecksLength :=
  ⟨fun _ _ hf hlen => exec_update_of_long hf hlen, fun _ hf => exec_update_of_ok hf (Nat.zero_le 64) rfl, rfl⟩

/-- The bytes UPDATE absorbs, in order (20 R204). -/
theorem inputBytes_eq_map {s : State} {len : Nat} (hlen : len ≤ 64) :
    inputBytes len s = ((List.finRange 64).take len).map (inputByte s) := by
  have hl := inputBytes_length len s hlen
  apply List.ext_getElem
  · rw [hl, List.length_map, List.length_take, List.length_finRange, Nat.min_eq_left hlen]
  · intro j h1 _
    have hbyte := getD_inputBytes (s := s) ⟨j, by omega⟩ (hl ▸ h1)
    rw [List.getD_eq_getElem _ _ h1] at hbyte
    rw [hbyte, List.getElem_map, List.getElem_take, List.getElem_finRange]
    rfl

/-- Equal bytes below LEN are the same input. -/
theorem inputBytes_congr {s t : State} {len : Nat} (hlen : len ≤ 64)
    (h : ∀ j : Fin 64, j.val < len → inputByte t j = inputByte s j) : inputBytes len t = inputBytes len s := by
  rw [inputBytes_eq_map hlen, inputBytes_eq_map hlen]
  refine List.map_congr_left fun j hj => h j ?_
  obtain ⟨i, hi, rfl⟩ := List.mem_take_iff_getElem.mp hj
  rw [List.getElem_finRange]
  exact hi.trans_le (Nat.min_le_left _ _)

/-- Settles O31: under the invariant and within the limit TreeUpdate absorbs every byte, one by one. -/
theorem updateCompletesAndCountsBytes : Obligations.UpdateCompletesAndCountsBytes := by
  intro s len hs hf hlen hlimit
  have habsorb := treeUpdate_of_inv (data := inputBytes len s) (hs.hasher hf)
  rw [inputBytes_length len s hlen] at habsorb
  obtain ⟨hover, -⟩ | ⟨-, u, hu, -, hcount⟩ := habsorb
  · omega
  · refine ⟨_, u, exec_update_of_ok hf hlen hu, ?_, .refl u, hcount, ?_⟩
    · rw [← inputBytes_eq_map hlen, ← treeUpdate_eq_foldlM, hu]
    · exact congrArg (setErr .ok) (treeUpdate_frame hu)

end Sys2Proof.Machine
end

section
/-! UPDATE does not depend on IN_DATA beyond the bytes it reads, nor on STATUS.ERR (42_tree_hasher.md R606, R614). -/

namespace Sys2Proof.Machine

/-- `s` with other operands and another code in STATUS.ERR: the registers that UPDATE's work neither reads nor
writes. -/
def withInput (data : Block) (e : ErrCode) (s : State) : State := { s with inData := data, err := e }

@[simp] theorem withInput_chunk (data : Block) (e : ErrCode) (s : State) : (withInput data e s).chunk = s.chunk := rfl
@[simp] theorem withInput_keyWords (data : Block) (e : ErrCode) (s : State) :
    (withInput data e s).keyWords = s.keyWords := rfl
@[simp] theorem withInput_modeFlags (data : Block) (e : ErrCode) (s : State) :
    (withInput data e s).modeFlags = s.modeFlags := rfl

theorem addChunkCv_withInput (data : Block) (e : ErrCode) (cv : Cv) (n : U64) (s : State) :
    addChunkCv cv n (withInput data e s) = (addChunkCv cv n s).map (withInput data e) := by
  have hl := Nat.le_of_lt_succ s.cvStackLen.isLt
  cases hm : mergeSubtrees s.keyWords s.modeFlags s.cvStack s.cvStackLen.val hl cv n with
  | none => simp only [addChunkCv, withInput, hm]; rfl
  | some r =>
    simp only [addChunkCv, withInput, hm]
    by_cases hfull : r.1.val = 54
    · rw [dif_pos hfull, dif_pos hfull]; rfl
    · rw [dif_neg hfull, dif_neg hfull]; rfl

theorem completeChunk_withInput (data : Block) (e : ErrCode) (s : State) :
    completeChunk (withInput data e s) = (completeChunk s).map (withInput data e) := by
  simp only [completeChunk, addChunkCv_withInput, withInput_chunk, withInput_keyWords, withInput_modeFlags]
  generalize addChunkCv (chainingValue (chunkOutput s.modeFlags s.chunk)) (s.chunk.counter + 1) s = r
  cases r <;> rfl

theorem makeRoom_withInput (data : Block) (e : ErrCode) (s : State) :
    makeRoom (withInput data e s) = (makeRoom s).map (withInput data e) := by
  rw [makeRoom, makeRoom, withInput_chunk]
  by_cases hfull : chunkLen s.chunk = 1024
  · rw [if_pos hfull, if_pos hfull, completeChunk_withInput]
  · rw [if_neg hfull, if_neg hfull]
    rfl

theorem absorbByte_withInput (data : Block) (e : ErrCode) (s : State) (b : Byte) :
    absorbByte (withInput data e s) b = (absorbByte s b).map (withInput data e) := by
  rw [absorbByte, absorbByte, makeRoom_withInput]
  cases makeRoom s <;> rfl

/-- Absorbing bytes commutes with any change of IN_DATA and STATUS.ERR. -/
theorem treeUpdate_withInput (data : Block) (e : ErrCode) (bytes : List Byte) (s : State) :
    treeUpdate bytes (withInput data e s) = (treeUpdate bytes s).map (withInput data e) := by
  simp only [treeUpdate_eq_foldlM]
  induction bytes generalizing s with
  | nil => rfl
  | cons b bytes ih =>
    rw [List.foldlM_cons, List.foldlM_cons, absorbByte_withInput]
    cases absorbByte s b with
    | error x => rfl
    | ok t => exact ih t

/-- Settles O36: the bytes absorbed are the same, and the rest of IN_DATA is carried along. -/
theorem updateIgnoresBytesBeyondLength : Obligations.UpdateIgnoresBytesBeyondLength := by
  intro s t data len hlen hsame hexec
  have hbytes : inputBytes len (withInput data s.err s) = inputBytes len s := inputBytes_congr hlen hsame
  have htree : treeUpdate (inputBytes len (withInput data s.err s)) (withInput data s.err s) =
      (treeUpdate (inputBytes len s) s).map (withInput data s.err) := by rw [hbytes, treeUpdate_withInput]
  obtain ⟨hf, rfl⟩ | ⟨-, hlong, -⟩ | ⟨hf, -, u, hu, rfl⟩ | ⟨hf, -, hu, rfl⟩ := execUpdate_cases hexec
  · exact exec_update_of_fatal (s := withInput data s.err s) hf len
  · exact absurd hlen (Nat.not_le.mpr hlong)
  · rw [hu] at htree
    exact exec_update_of_ok (s := withInput data s.err s) hf hlen htree
  · rw [hu] at htree
    exact exec_update_of_overflow (s := withInput data s.err s) hf hlen htree

end Sys2Proof.Machine
end

section
/-! The pieces of an input: absorbing them one after the other is absorbing their bytes (42_tree_hasher.md R614). -/

namespace Sys2Proof.Machine

/-- The tree's work on a piece that has been loaded into IN_DATA. -/
theorem treeUpdate_inputBytes_packBytes {s : State} {p : List Byte} (hp : p.length ≤ 64) :
    treeUpdate (inputBytes p.length (withInput (packBytes p) s.err s)) (withInput (packBytes p) s.err s) =
      (treeUpdate p s).map (withInput (packBytes p) s.err) := by
  rw [inputBytes_packBytes hp rfl, treeUpdate_withInput]

/-- A piece whose bytes the tree absorbs. -/
theorem absorbPiece_of_ok {s u : State} {p : List Byte} (hf : s.fatal = false) (hp : p.length ≤ 64)
    (hu : treeUpdate p s = .ok u) : absorbPiece s p = some (withInput (packBytes p) .ok u) := by
  have htree := treeUpdate_inputBytes_packBytes (s := s) hp
  rw [hu] at htree
  have hexec : exec (.update p.length) { s with inData := packBytes p } = .next (withInput (packBytes p) .ok u) :=
    exec_update_of_ok (s := withInput (packBytes p) s.err s) (u := withInput (packBytes p) s.err u) hf hp htree
  rw [absorbPiece, hexec]
  rfl

/-- A piece whose bytes the tree does not absorb: UPDATE overflows or faults. -/
theorem absorbPiece_of_error {s : State} {p : List Byte} {e : TreeStop} (hf : s.fatal = false) (hp : p.length ≤ 64)
    (hu : treeUpdate p s = .error e) : absorbPiece s p = none := by
  have htree := treeUpdate_inputBytes_packBytes (s := s) hp
  rw [hu] at htree
  cases e with
  | overflow =>
    have hexec : exec (.update p.length) { s with inData := packBytes p } =
        .next (stackOverflow (withInput (packBytes p) s.err s)) := exec_update_of_overflow hf hp htree
    rw [absorbPiece, hexec]
    exact if_neg nofun
  | underflow =>
    have hexec : exec (.update p.length) { s with inData := packBytes p } = .fault .cvStackUnderflow :=
      exec_update_of_underflow hf hp htree
    rw [absorbPiece, hexec]

theorem treeUpdate_fatal {data : List Byte} {s u : State} (h : treeUpdate data s = .ok u) : u.fatal = s.fatal := by
  rw [treeUpdate_frame h]

/-- Pieces whose bytes the tree absorbs leave the tree's result, with some operands and some code in STATUS.ERR. -/
theorem absorbPieces_of_ok {s u : State} {ps : List (List Byte)} (hf : s.fatal = false)
    (hps : ∀ p ∈ ps, p.length ≤ 64) (hu : treeUpdate ps.flatten s = .ok u) :
    ∃ data e, absorbPieces s ps = some (withInput data e u) := by
  induction ps generalizing s u with
  | nil => cases hu; exact ⟨s.inData, s.err, rfl⟩
  | cons p ps ih =>
    obtain ⟨hp, hps⟩ := List.forall_mem_cons.mp hps
    rw [List.flatten_cons, treeUpdate_append] at hu
    cases hv : treeUpdate p s with
    | error x => rw [hv] at hu; cases hu
    | ok v =>
      rw [hv] at hu
      have hrest := treeUpdate_withInput (packBytes p) .ok ps.flatten v
      rw [show treeUpdate ps.flatten v = .ok u from hu] at hrest
      obtain ⟨data, e, h⟩ := ih (s := withInput (packBytes p) .ok v) ((treeUpdate_fatal hv).trans hf) hps hrest
      rw [absorbPieces, List.foldlM_cons, absorbPiece_of_ok hf hp hv]
      exact ⟨data, e, h⟩

/-- Pieces whose bytes the tree does not absorb are not absorbed. -/
theorem absorbPieces_of_error {s : State} {ps : List (List Byte)} {x : TreeStop} (hf : s.fatal = false)
    (hps : ∀ p ∈ ps, p.length ≤ 64) (hu : treeUpdate ps.flatten s = .error x) : absorbPieces s ps = none := by
  induction ps generalizing s with
  | nil => cases hu
  | cons p ps ih =>
    obtain ⟨hp, hps⟩ := List.forall_mem_cons.mp hps
    rw [List.flatten_cons, treeUpdate_append] at hu
    rw [absorbPieces, List.foldlM_cons]
    cases hv : treeUpdate p s with
    | error y => rw [absorbPiece_of_error hf hp hv]; rfl
    | ok v =>
      rw [hv] at hu
      have hrest := treeUpdate_withInput (packBytes p) .ok ps.flatten v
      rw [show treeUpdate ps.flatten v = .error x from hu] at hrest
      rw [absorbPiece_of_ok hf hp hv]
      exact ih (s := withInput (packBytes p) .ok v) ((treeUpdate_fatal hv).trans hf) hps hrest

/-- Settles O37: both cuts absorb the same bytes. -/
theorem updatesDependOnTheBytesOnly : Obligations.UpdatesDependOnTheBytesOnly := by
  intro s ps qs hf hps hqs hflat
  cases hw : treeUpdate ps.flatten s with
  | error x => exact .inl ⟨absorbPieces_of_error hf hps hw, absorbPieces_of_error hf hqs (hflat ▸ hw)⟩
  | ok w =>
    obtain ⟨data, e, ht⟩ := absorbPieces_of_ok hf hps hw
    obtain ⟨data', e', hu⟩ := absorbPieces_of_ok hf hqs (hflat ▸ hw)
    exact .inr ⟨_, _, ht, hu, rfl, congrArg (withInput data e) (treeUpdate_frame hw)⟩

end Sys2Proof.Machine
end

section
/-! UPDATE that comes to a full chunk, or fills one and passes it (42_tree_hasher.md R607, R608, R612). -/

namespace Sys2Proof.Machine

theorem makeRoom_eq_ok_of_full {s u : State} (hfull : chunkLen s.chunk = 1024)
    (hu : addChunkCv (chainingValue (chunkOutput s.modeFlags s.chunk)) (s.chunk.counter + 1) s = .ok u) :
    makeRoom s = .ok { u with chunk := chunkInit s.keyWords (s.chunk.counter + 1) } := by
  simp only [makeRoom, hfull, if_true, completeChunk, hu]

theorem makeRoom_eq_error_of_full {s : State} {x : TreeStop} (hfull : chunkLen s.chunk = 1024)
    (hu : addChunkCv (chainingValue (chunkOutput s.modeFlags s.chunk)) (s.chunk.counter + 1) s = .error x) :
    makeRoom s = .error x := by
  simp only [makeRoom, hfull, if_true, completeChunk, hu]

/-- At most 1024 bytes that come to a full chunk fit in the next one (R607). -/
theorem treeUpdate_of_full {s u : State} {data : List Byte} (hfull : chunkLen s.chunk = 1024) (hne : data ≠ [])
    (hlen : data.length ≤ 1024)
    (hu : addChunkCv (chainingValue (chunkOutput s.modeFlags s.chunk)) (s.chunk.counter + 1) s = .ok u) :
    treeUpdate data s = .ok { u with
      chunk := data.foldl (chunkByte u.modeFlags) (chunkInit s.keyWords (s.chunk.counter + 1)) } := by
  have hv := makeRoom_eq_ok_of_full hfull hu
  have hroom := foldlM_absorbByte_of_room data { u with chunk := chunkInit s.keyWords (s.chunk.counter + 1) }
    (by rwa [chunkLen_chunkInit, Nat.zero_add])
  rw [treeUpdate_eq_foldlM, ← hroom]
  cases data with
  | nil => exact absurd rfl hne
  | cons b data =>
    rw [List.foldlM_cons, List.foldlM_cons, absorbByte_of_makeRoom b hv,
      absorbByte_of_makeRoom b (makeRoom_of_lt ((chunkLen_chunkInit _ _).trans_lt (by decide)))]

theorem treeUpdate_of_full_of_error {s : State} {data : List Byte} {x : TreeStop} (hfull : chunkLen s.chunk = 1024)
    (hne : data ≠ [])
    (hu : addChunkCv (chainingValue (chunkOutput s.modeFlags s.chunk)) (s.chunk.counter + 1) s = .error x) :
    treeUpdate data s = .error x := by
  cases data with
  | nil => exact absurd rfl hne
  | cons b data =>
    rw [treeUpdate_eq_foldlM, List.foldlM_cons, absorbByte, makeRoom_eq_error_of_full hfull hu]
    rfl

/-- Bytes in a fresh block stand at its beginning, and zeros follow them (41 R506). -/
theorem getElem_buf_fillBlock_of_fresh {c : ChunkRegs} (hc : FreshBlock c) (bytes : List Byte) (j : Nat) (hj : j < 64) :
    (fillBlock c bytes).buf[j] = bytes.getD j 0 := by
  obtain ⟨hbuf, hlen⟩ := hc
  have hzero : c.blockLen.val = 0 := congrArg Fin.val hlen
  rw [getElem_fillBlock_buf, hzero, Nat.zero_add, Nat.sub_zero]
  by_cases hin : j < bytes.length
  · exact if_pos ⟨Nat.zero_le j, hin⟩
  · rw [if_neg fun h => hin h.2, List.getD_eq_default _ _ (Nat.le_of_not_lt hin)]
    simp only [hbuf, Vector.getElem_replicate]

/-- Settles O35: the merge, then a fresh chunk that only buffers the bytes. -/
theorem updatePastChunkStartsTheNext : Obligations.UpdatePastChunkStartsTheNext := by
  intro s u len hf hpos hlen hfull hu
  have hbytes := inputBytes_length len s hlen
  have htree := treeUpdate_of_full hfull (List.ne_nil_of_length_pos (hbytes.symm ▸ hpos)) (by omega) hu
  have hfit : (chunkInit s.keyWords (s.chunk.counter + 1)).blockLen.val + (inputBytes len s).length ≤ 64 :=
    (Nat.zero_add _).trans_le (hbytes.trans_le hlen)
  rw [foldl_chunkByte_fill _ _ _ hfit] at htree
  refine ⟨_, exec_update_of_ok hf hlen htree, ?_, rfl, rfl, rfl, ?_, fun j => ?_⟩
  · rw [addChunkCv_frame hu]
    rfl
  · exact (fillBlock_blockLen _ _ hfit).trans ((Nat.zero_add _).trans hbytes)
  · refine (getElem_buf_fillBlock_of_fresh ⟨rfl, rfl⟩ _ j.val j.isLt).trans ?_
    by_cases hj : j.val < len
    · rw [if_pos hj, getD_inputBytes j hj]
    · rw [if_neg hj, List.getD_eq_default _ _ (by omega)]

/-- When bytes that come to a full chunk overflow, in any state: the push finds 54 entries (42 R608, R612). -/
theorem treeUpdate_overflow_iff_of_full {s : State} {data : List Byte} (hfull : chunkLen s.chunk = 1024)
    (hne : data ≠ []) (hlen : data.length ≤ 1024) :
    treeUpdate data s = .error .overflow ↔ s.cvStackLen.val = 54 ∧ (s.chunk.counter + 1).toNat % 2 = 1 := by
  rw [← addChunkCv_overflow_iff (chainingValue (chunkOutput s.modeFlags s.chunk))]
  cases hu : addChunkCv (chainingValue (chunkOutput s.modeFlags s.chunk)) (s.chunk.counter + 1) s with
  | error x => rw [treeUpdate_of_full_of_error hfull hne hu]
  | ok u =>
    rw [treeUpdate_of_full hfull hne hlen hu]
    exact ⟨nofun, nofun⟩

/-- When absorbing at most 1024 bytes overflows, in any state: the bytes pass the end of the chunk, full before or
filled by the first of them, and the push finds 54 entries. -/
theorem treeUpdate_overflow_iff {s : State} {data : List Byte} (hlen : data.length ≤ 1024) :
    treeUpdate data s = .error .overflow ↔
      1024 < chunkLen s.chunk + data.length ∧ s.cvStackLen.val = 54 ∧ (s.chunk.counter + 1).toNat % 2 = 1 := by
  by_cases hpast : 1024 < chunkLen s.chunk + data.length
  · have hle := chunkLen_le s.chunk
    have hpre : chunkLen s.chunk + (data.take (1024 - chunkLen s.chunk)).length = 1024 := by
      rw [List.length_take]; omega
    have hfill := foldlM_absorbByte_of_room _ s hpre.le
    rw [← treeUpdate_eq_foldlM] at hfill
    have hpost : (data.drop (1024 - chunkLen s.chunk)).length = chunkLen s.chunk + data.length - 1024 := by
      rw [List.length_drop]; omega
    have hrest := treeUpdate_overflow_iff_of_full
      (s := { s with chunk := (data.take (1024 - chunkLen s.chunk)).foldl (chunkByte s.modeFlags) s.chunk })
      (data := data.drop (1024 - chunkLen s.chunk)) ((chunkLen_foldl _ _ _ hpre.le).trans hpre)
      (List.ne_nil_of_length_pos (by omega)) (by omega)
    rw [foldl_chunkByte_counter] at hrest
    rw [← List.take_append_drop (1024 - chunkLen s.chunk) data, treeUpdate_append, hfill, List.take_append_drop]
    exact hrest.trans (and_iff_right hpast).symm
  · rw [treeUpdate_eq_foldlM, foldlM_absorbByte_of_room data s (Nat.le_of_not_lt hpast)]
    exact ⟨nofun, fun h => absurd h.1 hpast⟩

/-- STATUS.ERR tells an overflow from every other end of UPDATE. -/
theorem exec_update_err_eq_stackOverflow {s t : State} {len : Nat} (hexec : exec (.update len) s = .next t)
    (herr : t.err = .stackOverflow) : treeUpdate (inputBytes len s) s = .error .overflow ∧ t = stackOverflow s := by
  obtain ⟨-, rfl⟩ | ⟨-, -, rfl⟩ | ⟨-, -, u, -, rfl⟩ | ⟨-, -, hu, rfl⟩ := execUpdate_cases hexec
  · cases herr
  · cases herr
  · cases herr
  · exact ⟨hu, rfl⟩

/-- From a proper state UPDATE overflows exactly beyond the limit of 2^55 − 1 full chunks. -/
theorem Inv.exists_exec_update {s : State} {len : Nat} (hs : Inv s) (hf : s.fatal = false) (hlen : len ≤ 64) :
    ∃ t, exec (.update len) s = .next t ∧
      (1024 * (2 ^ 55 - 1) < absorbedBytes s + len → t.err = .stackOverflow) ∧
      (absorbedBytes s + len ≤ 1024 * (2 ^ 55 - 1) → t.err = .ok ∧ t.fatal = false) := by
  have habsorb := treeUpdate_of_inv (data := inputBytes len s) (hs.hasher hf)
  rw [inputBytes_length len s hlen] at habsorb
  obtain ⟨hover, hu⟩ | ⟨hlimit, u, hu, -⟩ := habsorb
  · exact ⟨_, exec_update_of_overflow hf hlen hu, fun _ => rfl, fun h => absurd hover (Nat.not_lt.mpr h)⟩
  · exact ⟨_, exec_update_of_ok hf hlen hu, fun h => absurd hlimit (Nat.not_le.mpr h),
      fun _ => ⟨rfl, (treeUpdate_fatal hu).trans hf⟩⟩

/-- Settles O32: the limit under the invariant, the push that finds 54 entries in any state, and the frame of the
overflow. -/
theorem updateOverflowsTheStack : Obligations.UpdateOverflowsTheStack := by
  refine ⟨fun s len hs hf hlen => hs.exists_exec_update hf hlen, fun s len hf hlen => ?_,
    fun s t len hexec herr => ?_, rfl⟩
  · have hbytes := inputBytes_length len s hlen
    have hiff := treeUpdate_overflow_iff (s := s) (data := inputBytes len s) (by omega)
    rw [hbytes] at hiff
    rw [← hiff]
    constructor
    · rintro ⟨t, hexec, herr⟩
      exact (exec_update_err_eq_stackOverflow hexec herr).1
    · intro hu
      exact ⟨_, exec_update_of_overflow hf hlen hu, rfl⟩
  · obtain ⟨-, rfl⟩ := exec_update_err_eq_stackOverflow hexec herr
    rfl

end Sys2Proof.Machine
end

section
/-! The answers of FINALIZE and SQUEEZE (43_output_finalizer.md R705, R706, R709), and the root Output (R701, R704). -/

namespace Sys2Proof.Machine

/-- Settles O40: the walk up the stack is the fold over its entries, and the words of a chaining value. -/
theorem rootOutputWalksTheRightEdge : Obligations.RootOutputWalksTheRightEdge :=
  ⟨rootOutput_eq_foldr, fun _ i => getElem_first8Words _ i⟩

theorem exec_finalize_of_ok {s : State} (hf : s.fatal = false) :
    exec .finalize s = .next (setErr .ok
      { latchOutput (rootOutput s) s with outData := rootBlock (rootOutput s) 0, xofCtr := 1, outValid := true }) :=
  if_neg (ne_true_of_eq_false hf)

theorem exec_finalize_of_fatal {s : State} (hf : s.fatal = true) :
    exec .finalize s = .next { s with err := .fatalState } :=
  if_pos hf

/-- Settles O42: FINALIZE by its FATAL check. -/
theorem finalizeLatchesRootOutput : Obligations.FinalizeLatchesRootOutput :=
  ⟨decodeOfEncodeIsIdentity .finalize rfl, fun _ hf => exec_finalize_of_ok hf,
    fun _ hf => exec_finalize_of_fatal hf⟩

theorem exec_squeeze_of_valid {s : State} (hf : s.fatal = false) (hv : s.outValid = true) :
    exec .squeeze s = .next (setErr .ok
      { s with outData := rootBlock (latchedOutput s) s.xofCtr, xofCtr := s.xofCtr + 1 }) :=
  (if_neg (ne_true_of_eq_false hf)).trans (if_pos hv)

theorem exec_squeeze_of_not_valid {s : State} (hf : s.fatal = false) (hv : s.outValid = false) :
    exec .squeeze s = .next { s with err := .sequenceError } :=
  (if_neg (ne_true_of_eq_false hf)).trans (if_neg (ne_true_of_eq_false hv))

theorem exec_squeeze_of_fatal {s : State} (hf : s.fatal = true) :
    exec .squeeze s = .next { s with err := .fatalState } :=
  if_pos hf

/-- Settles O43: SQUEEZE by its two checks; XOF_CTR + 1 is taken modulo 2^64. -/
theorem squeezeWritesNextBlock : Obligations.SqueezeWritesNextBlock :=
  ⟨decodeOfEncodeIsIdentity .squeeze rfl,
    fun s hf hv => ⟨_, exec_squeeze_of_valid hf hv, rfl, BitVec.toNat_add s.xofCtr 1⟩,
    fun _ hf hv => exec_squeeze_of_not_valid hf hv, fun _ hf => exec_squeeze_of_fatal hf, rfl⟩

end Sys2Proof.Machine
end

section
/-! The keystream as a list of bytes (43_output_finalizer.md R703, R707, R710): an output is the first bytes of any
number of blocks that is large enough. -/

namespace Sys2Proof.Machine

theorem keystream_succ (o : Output) (m : Nat) :
    keystream o (m + 1) = keystream o m ++ leBytes (rootBlock o (BitVec.ofNat 64 m)).toList := by
  rw [keystream, List.range_succ, List.flatMap_append, List.flatMap_singleton]
  rfl

theorem keystream_length (o : Output) (m : Nat) : (keystream o m).length = 64 * m := by
  induction m with
  | zero => rfl
  | succ m ih => rw [keystream_succ, List.length_append, ih, leBytes_length, Vector.length_toList]; omega

/-- Fewer blocks are the beginning of more. -/
theorem keystream_isPrefix (o : Output) {m n : Nat} (h : m ≤ n) : keystream o m <+: keystream o n := by
  induction n, h using Nat.le_induction with
  | base => exact ⟨[], List.append_nil _⟩
  | succ n _ ih => exact ih.trans ⟨_, (keystream_succ o n).symm⟩

/-- Any number of blocks that holds `size` bytes gives the output of `size` bytes. -/
theorem rootOutputBytes_eq_take (o : Output) {size m : Nat} (h : size ≤ 64 * m) :
    rootOutputBytes o size = (keystream o m).take size := by
  obtain ⟨rest, hrest⟩ := keystream_isPrefix o (show (size + 63) / 64 ≤ m by omega)
  rw [rootOutputBytes, ← hrest, List.take_append_of_le_length]
  rw [keystream_length]
  omega

theorem rootOutputBytes_length (o : Output) (size : Nat) : (rootOutputBytes o size).length = size := by
  rw [rootOutputBytes, List.length_take, keystream_length]
  omega

/-- Settles O46: both outputs are first bytes of the blocks of the longer one. -/
theorem shorterOutputIsInitialPart : Obligations.ShorterOutputIsInitialPart := by
  intro o l1 l2 hle
  have hblocks : l2 ≤ 64 * ((l2 + 63) / 64) := by omega
  refine ⟨?_, rootOutputBytes_length o l1⟩
  rw [rootOutputBytes_eq_take o (hle.trans hblocks), rootOutputBytes_eq_take o hblocks, List.take_take,
    Nat.min_eq_left hle]

end Sys2Proof.Machine
end

section
/-! FINALIZE and the SQUEEZEs after it stream the keystream of the root Output (43_output_finalizer.md R702 to R706,
30_encoding.md R308). -/

namespace Sys2Proof.Machine

/-- `t` has written keystream block `k` of the root Output of `s`, and is ready to squeeze the next one. -/
structure Streaming (s : State) (k : Nat) (t : State) : Prop where
  outData : t.outData = rootBlock (rootOutput s) (BitVec.ofNat 64 k)
  xofCtr : t.xofCtr = BitVec.ofNat 64 (k + 1)
  /-- Root blocks do not read the Output's counter, which is not latched (R702). -/
  latched : ∀ j, rootBlock (latchedOutput t) j = rootBlock (rootOutput s) j
  outValid : t.outValid = true
  fatal : t.fatal = false
  hasher : SameHasher s t

theorem exists_exec_finalize_streaming {s : State} (hf : s.fatal = false) :
    ∃ t, exec .finalize s = .next t ∧ Streaming s 0 t :=
  ⟨_, exec_finalize_of_ok hf, rfl, rfl, fun _ => rfl, rfl, hf, .refl s⟩

theorem Streaming.exists_exec_squeeze {s t : State} {k : Nat} (h : Streaming s k t) :
    ∃ u, exec .squeeze t = .next u ∧ Streaming s (k + 1) u :=
  ⟨_, exec_squeeze_of_valid h.fatal h.outValid, (h.latched t.xofCtr).trans (congrArg _ h.xofCtr),
    (congrArg (· + 1) h.xofCtr).trans (BitVec.ofNat_add (k + 1) 1).symm, h.latched, h.outValid, h.fatal, h.hasher⟩

theorem exists_squeezeTimes_streaming {s : State} (hf : s.fatal = false) (k : Nat) :
    ∃ t, squeezeTimes k s = some t ∧ Streaming s k t := by
  induction k with
  | zero =>
    obtain ⟨t, hexec, ht⟩ := exists_exec_finalize_streaming hf
    exact ⟨t, by rw [squeezeTimes, hexec], ht⟩
  | succ k ih =>
    obtain ⟨t, hk, ht⟩ := ih
    obtain ⟨u, hexec, hu⟩ := ht.exists_exec_squeeze
    exact ⟨u, by simp only [squeezeTimes, hk, hexec], hu⟩

/-- The first `m` keystream blocks. -/
def rootBlocks (o : Output) (m : Nat) : List Block := (List.range m).map fun k => rootBlock o (BitVec.ofNat 64 k)

theorem rootBlocks_length (o : Output) (m : Nat) : (rootBlocks o m).length = m := by
  rw [rootBlocks, List.length_map, List.length_range]

theorem getElem_rootBlocks (o : Output) (m : Nat) {k : Nat} (h : k < (rootBlocks o m).length) :
    (rootBlocks o m)[k] = rootBlock o (BitVec.ofNat 64 k) := by
  simp only [rootBlocks, List.getElem_map, List.getElem_range]

/-- The bytes of the words of the blocks are the keystream. -/
theorem leBytes_rootBlocks (o : Output) (m : Nat) :
    leBytes ((rootBlocks o m).flatMap Vector.toList) = keystream o m := by
  rw [leBytes, List.flatMap_assoc, rootBlocks, List.flatMap_map]
  rfl

/-- Settles O44: by induction on the SQUEEZEs each block is the keystream's; max(1, ceil(n/64)) blocks hold n bytes. -/
theorem squeezesStreamTheKeystream : Obligations.SqueezesStreamTheKeystream := by
  refine ⟨fun s k hf => ?_, fun s n hf => ⟨rootBlocks (rootOutput s) (max 1 ((n + 63) / 64)), ?_, ?_, ?_⟩⟩
  · obtain ⟨t, hk, ht⟩ := exists_squeezeTimes_streaming hf k
    exact ⟨t, hk, ht.outData, ht.xofCtr, ht.hasher⟩
  · exact rootBlocks_length _ _
  · intro k hlt
    obtain ⟨t, hk, ht⟩ := exists_squeezeTimes_streaming hf k
    exact ⟨t, hk, ht.outData.trans (getElem_rootBlocks _ _ hlt).symm⟩
  · rw [digestOf, leBytes_rootBlocks]
    exact (rootOutputBytes_eq_take _ (by omega)).symm

end Sys2Proof.Machine
end

section
/-! UPDATE works on the hasher alone: after FINALIZE and SQUEEZE, which leave the hasher, it continues the same input
(43_output_finalizer.md R708). -/

namespace Sys2Proof.Machine

/-- `t` with the hasher of `s` (42 R600). -/
def withHasher (t s : State) : State :=
  { t with
    modeFlags := s.modeFlags
    keyWords := s.keyWords
    chunk := s.chunk
    cvStack := s.cvStack
    cvStackLen := s.cvStackLen }

theorem SameHasher.withHasher_eq {s t : State} (h : SameHasher s t) : withHasher t s = t := by
  obtain ⟨hmode, hkey, hchunk, hstack, hlen⟩ := h
  rw [withHasher, ← hmode, ← hkey, ← hchunk, ← hstack, ← hlen]

theorem addChunkCv_withHasher (t : State) (cv : Cv) (n : U64) (s : State) :
    addChunkCv cv n (withHasher t s) = (addChunkCv cv n s).map (withHasher t) := by
  simp only [addChunkCv, withHasher]
  cases mergeSubtrees s.keyWords s.modeFlags s.cvStack s.cvStackLen.val (Nat.le_of_lt_succ s.cvStackLen.isLt) cv n with
  | none => rfl
  | some r => dsimp only; split <;> rfl

theorem completeChunk_withHasher (t s : State) :
    completeChunk (withHasher t s) = (completeChunk s).map (withHasher t) := by
  rw [completeChunk, addChunkCv_withHasher, completeChunk]
  dsimp only [withHasher]
  cases addChunkCv (chainingValue (chunkOutput s.modeFlags s.chunk)) (s.chunk.counter + 1) s <;> rfl

theorem makeRoom_withHasher (t s : State) : makeRoom (withHasher t s) = (makeRoom s).map (withHasher t) := by
  rw [makeRoom, completeChunk_withHasher, makeRoom, apply_ite (Except.map (withHasher t))]
  rfl

theorem absorbByte_withHasher (t s : State) (b : Byte) :
    absorbByte (withHasher t s) b = (absorbByte s b).map (withHasher t) := by
  rw [absorbByte, absorbByte, makeRoom_withHasher]
  cases makeRoom s <;> rfl

/-- Absorbing bytes reads and writes nothing but the hasher. -/
theorem treeUpdate_withHasher (t : State) (bytes : List Byte) (s : State) :
    treeUpdate bytes (withHasher t s) = (treeUpdate bytes s).map (withHasher t) := by
  simp only [treeUpdate_eq_foldlM]
  induction bytes generalizing s with
  | nil => rfl
  | cons b bytes ih =>
    rw [List.foldlM_cons, List.foldlM_cons, absorbByte_withHasher]
    cases absorbByte s b with
    | error x => rfl
    | ok u => exact ih u

theorem treeUpdate_of_sameHasher {s t : State} (h : SameHasher s t) (bytes : List Byte) :
    treeUpdate bytes t = (treeUpdate bytes s).map (withHasher t) := by
  rw [← treeUpdate_withHasher, h.withHasher_eq]

/-- UPDATE answers alike in two states with the same hasher, FATAL and IN_DATA (and the model's own `freeCtr`, which
names the free values of an overflow). -/
theorem exists_exec_update_of_sameHasher {s t u : State} {len : Nat} (hh : SameHasher s t) (hf : t.fatal = s.fatal)
    (hin : t.inData = s.inData) (hfree : t.freeCtr = s.freeCtr) (hexec : exec (.update len) s = .next u) :
    ∃ v, exec (.update len) t = .next v ∧ SameHasher u v ∧ v.fatal = u.fatal ∧ v.err = u.err := by
  have hbytes : inputBytes len t = inputBytes len s := by rw [inputBytes, hin, inputBytes]
  have htree : treeUpdate (inputBytes len t) t = (treeUpdate (inputBytes len s) s).map (withHasher t) := by
    rw [hbytes, treeUpdate_of_sameHasher hh]
  obtain ⟨hfs, rfl⟩ | ⟨hfs, hlong, rfl⟩ | ⟨hfs, hlen, w, hw, rfl⟩ | ⟨hfs, hlen, hw, rfl⟩ := execUpdate_cases hexec
  · exact ⟨_, exec_update_of_fatal (hf.trans hfs) len, hh, hf, rfl⟩
  · exact ⟨_, exec_update_of_long (hf.trans hfs) hlong, hh, hf, rfl⟩
  · exact ⟨_, exec_update_of_ok (u := withHasher t w) (hf.trans hfs) hlen (by rw [htree, hw]; rfl), .refl w,
      hf.trans (treeUpdate_fatal hw).symm, rfl⟩
  · refine ⟨_, exec_update_of_overflow (hf.trans hfs) hlen (by rw [htree, hw]; rfl), ?_, rfl, rfl⟩
    obtain ⟨hmode, hkey, -⟩ := hh
    simp only [SameHasher, stackOverflow, hmode, hkey, hfree, and_self]

/-- All that FINALIZE and SQUEEZE write: the output registers and STATUS.ERR. -/
theorem exec_finalize_squeeze_frame {s t : State} {i : Instr} (hi : i = .finalize ∨ i = .squeeze)
    (hexec : exec i s = .next t) : t = { s with
      outCv := t.outCv
      outBlock := t.outBlock
      outBlen := t.outBlen
      outFlags := t.outFlags
      outData := t.outData
      xofCtr := t.xofCtr
      outValid := t.outValid
      err := t.err } := by
  obtain rfl | rfl := hi
  · obtain ⟨-, rfl⟩ | ⟨-, rfl⟩ := execFinalize_cases hexec <;> rfl
  · obtain ⟨-, rfl⟩ | ⟨-, -, rfl⟩ | ⟨-, -, rfl⟩ := execSqueeze_cases hexec <;> rfl

/-- Settles O45: what UPDATE reads lies in the frame of FINALIZE and SQUEEZE. -/
theorem finalizeAndSqueezeKeepTheHasher : Obligations.FinalizeAndSqueezeKeepTheHasher := by
  intro s t i hi hexec
  have hframe := exec_finalize_squeeze_frame hi hexec
  have hh : SameHasher s t := by rw [hframe]; exact .refl s
  exact ⟨hframe, fun _ _ hu =>
    exists_exec_update_of_sameHasher hh (by rw [hframe]) (by rw [hframe]) (by rw [hframe]) hu⟩

end Sys2Proof.Machine
end

section
/-! The checks on a command (60_exceptions.md R801, R802), and who changes FATAL (R803, R806). -/

namespace Sys2Proof.Machine

/-- How a command can end: the first failing check is reported and nothing else changes, or it succeeds, or UPDATE finds
the stack full (60 R801, R802). -/
inductive CheckedEffect (s t : State) (i : Instr) : Prop
  | fails (hc : firstFailingCheck i s ≠ .ok) (h : t = setErr (firstFailingCheck i s) s)
  | succeeds (hc : firstFailingCheck i s = .ok) (h : t.err = .ok)
  | overflows (hc : firstFailingCheck i s = .ok) (hi : ∃ len, i = .update len) (h : t = stackOverflow s)

theorem CheckedEffect.of_check {s : State} {i : Instr} {e : ErrCode} (hc : firstFailingCheck i s = e) (he : e ≠ .ok) :
    CheckedEffect s (setErr e s) i :=
  hc ▸ .fails (hc ▸ he) rfl

/-! The checks of each command, one after the other (60 R802). -/

theorem firstFailingCheck_of_refused {s : State} {i : Instr} (hf : s.fatal = true) (hr : refusedWhenFatal i = true) :
    firstFailingCheck i s = .fatalState :=
  if_pos (by rw [hf, hr]; rfl)

theorem firstFailingCheck_init (s : State) : firstFailingCheck .init s = .ok :=
  if_neg (by simp [refusedWhenFatal])

theorem firstFailingCheck_initKeyed (len : Nat) (s : State) :
    firstFailingCheck (.initKeyed len) s = if len = 32 then .ok else .invalidKeyLength :=
  if_neg (by simp [refusedWhenFatal])

theorem firstFailingCheck_initDerive (s : State) : firstFailingCheck .initDerive s = .ok :=
  if_neg (by simp [refusedWhenFatal])

theorem firstFailingCheck_deriveCommit {s : State} (hf : s.fatal = false) :
    firstFailingCheck .deriveCommit s = if s.modeFlags = deriveKeyContext then .ok else .sequenceError :=
  if_neg (by simp [hf])

theorem firstFailingCheck_update {s : State} (hf : s.fatal = false) (len : Nat) :
    firstFailingCheck (.update len) s = if len ≤ 64 then .ok else .badLength :=
  if_neg (by simp [hf])

theorem firstFailingCheck_finalize {s : State} (hf : s.fatal = false) : firstFailingCheck .finalize s = .ok :=
  if_neg (by simp [hf])

theorem firstFailingCheck_squeeze {s : State} (hf : s.fatal = false) :
    firstFailingCheck .squeeze s = if s.outValid then .ok else .sequenceError :=
  if_neg (by simp [hf])

theorem firstFailingCheck_compress (s : State) : firstFailingCheck .compress s = .ok :=
  if_neg (by simp [refusedWhenFatal])

/-- The one lemma on the checks of a command and how it ends. -/
theorem exec_checked {i : Instr} {s t : State} (h : exec i s = .next t) : CheckedEffect s t i := by
  cases i with
  | init => exact .succeeds (firstFailingCheck_init s) (by rw [execInit_cases h]; rfl)
  | initKeyed len =>
    have hc := firstFailingCheck_initKeyed len s
    obtain ⟨hlen, rfl⟩ | ⟨hlen, rfl⟩ := execInitKeyed_cases h
    · exact .of_check (hc.trans (if_neg hlen)) nofun
    · exact .succeeds (hc.trans (if_pos hlen)) rfl
  | initDerive => exact .succeeds (firstFailingCheck_initDerive s) (by rw [execInitDerive_cases h]; rfl)
  | deriveCommit =>
    obtain ⟨hf, rfl⟩ | ⟨hf, hm, rfl⟩ | ⟨hf, hm, rfl⟩ := execDeriveCommit_cases h
    · exact .of_check (firstFailingCheck_of_refused hf rfl) nofun
    · exact .of_check ((firstFailingCheck_deriveCommit hf).trans (if_neg hm)) nofun
    · exact .succeeds ((firstFailingCheck_deriveCommit hf).trans (if_pos hm)) rfl
  | update len =>
    obtain ⟨hf, rfl⟩ | ⟨hf, hlen, rfl⟩ | ⟨hf, hlen, u, -, rfl⟩ | ⟨hf, hlen, -, ht⟩ := execUpdate_cases h
    · exact .of_check (firstFailingCheck_of_refused hf rfl) nofun
    · exact .of_check ((firstFailingCheck_update hf len).trans (if_neg (Nat.not_le.mpr hlen))) nofun
    · exact .succeeds ((firstFailingCheck_update hf len).trans (if_pos hlen)) rfl
    · exact .overflows ((firstFailingCheck_update hf len).trans (if_pos hlen)) ⟨len, rfl⟩ ht
  | finalize =>
    obtain ⟨hf, rfl⟩ | ⟨hf, rfl⟩ := execFinalize_cases h
    · exact .of_check (firstFailingCheck_of_refused hf rfl) nofun
    · exact .succeeds (firstFailingCheck_finalize hf) rfl
  | squeeze =>
    obtain ⟨hf, rfl⟩ | ⟨hf, hv, rfl⟩ | ⟨hf, hv, rfl⟩ := execSqueeze_cases h
    · exact .of_check (firstFailingCheck_of_refused hf rfl) nofun
    · exact .of_check ((firstFailingCheck_squeeze hf).trans (if_neg (ne_true_of_eq_false hv))) nofun
    · exact .succeeds ((firstFailingCheck_squeeze hf).trans (if_pos hv)) rfl
  | compress => exact .succeeds (firstFailingCheck_compress s) (by rw [execCompress_cases h]; rfl)

/-- Settles O47: of the three ends of a command only the failing check reports an error other than STACK_OVERFLOW. -/
theorem errorsChangeOnlyTheErrorCode : Obligations.ErrorsChangeOnlyTheErrorCode := by
  refine ⟨fun i s t h hok hover => ?_, fun i s r h => ?_⟩
  · cases exec_checked h with
    | fails _ ht => rw [ht]; rfl
    | succeeds _ hsucc => exact absurd hsucc hok
    | overflows _ _ ht => exact absurd (congrArg State.err ht) hover
  · obtain ⟨t, ht⟩ | ⟨_, -, ht⟩ := exec_stops i s <;> rw [ht] at h <;> cases h

/-- Settles O48: an illegal word comes before all other checks, and the code of a command is that of its checks. -/
theorem checksAreMadeInOrder : Obligations.ChecksAreMadeInOrder := by
  intro s t w rest hq hstep
  refine ⟨fun hill => ?_, fun i hd => ?_⟩
  · rw [(illegalWordsReportIllegalCommand s w rest hq).1 hill] at hstep
    cases hstep
    rfl
  · rw [step_of_decode_ok hq hd] at hstep
    cases exec_checked hstep with
    | fails _ ht => exact .inl (congrArg State.err ht)
    | succeeds hc hsucc => exact .inl (hsucc.trans hc.symm)
    | overflows hc hi ht => exact .inr ⟨hc, congrArg State.err ht, hi⟩

theorem exec_deriveCommit_of_fatal {s : State} (hf : s.fatal = true) :
    exec .deriveCommit s = .next { s with err := .fatalState } :=
  if_pos hf

/-- The FATAL check (60 R803). -/
theorem exec_of_refused {s : State} {i : Instr} (hf : s.fatal = true) (hr : refusedWhenFatal i = true) :
    exec i s = .next { s with err := .fatalState } := by
  cases i with
  | deriveCommit => exact exec_deriveCommit_of_fatal hf
  | update len => exact exec_update_of_fatal hf len
  | finalize => exact exec_finalize_of_fatal hf
  | squeeze => exact exec_squeeze_of_fatal hf
  | init => cases hr
  | initKeyed => cases hr
  | initDerive => cases hr
  | compress => cases hr

/-- Settles O49: the FATAL check, the three constructions it does not stop, and COMPRESS. -/
theorem fatalStateRefusesAndRecovers : Obligations.FatalStateRefusesAndRecovers := by
  refine ⟨fun _ _ hf hr => exec_of_refused hf hr, fun s i _ hi => ?_, fun s hf => ⟨_, rfl, hf, rfl⟩, rfl⟩
  obtain rfl | rfl | rfl := hi
  · exact ⟨_, succeed_hasherInit iv 0x00 s, rfl, rfl⟩
  · exact ⟨_, (exec_initKeyed_32 s).trans (succeed_hasherInit s.keyIn keyedHash s), rfl, rfl⟩
  · exact ⟨_, succeed_hasherInit iv deriveKeyContext s, rfl, rfl⟩

/-- The commands that clear FATAL (60 R803). -/
def ClearsFatal (i : Instr) : Prop := i = .init ∨ i = .initKeyed 32 ∨ i = .initDerive

/-- What each command makes of FATAL. DERIVE_COMMIT constructs a hasher too, but only while FATAL = 0. -/
theorem exec_fatal {i : Instr} {s t : State} (h : exec i s = .next t) :
    t.fatal = s.fatal ∨ (t.fatal = false ∧ ClearsFatal i) ∨
      (t.fatal = true ∧ t.err = .stackOverflow ∧ ∃ len, i = .update len) := by
  cases exec_effect h with
  | keeps hk => exact .inl hk.fatal
  | construct hc ht =>
    have htf : t.fatal = false := congrArg State.fatal ht
    cases hc with
    | init => exact .inr (.inl ⟨htf, .inl rfl⟩)
    | initKeyed => exact .inr (.inl ⟨htf, .inr (.inl rfl)⟩)
    | initDerive => exact .inr (.inl ⟨htf, .inr (.inr rfl)⟩)
    | deriveCommit =>
      cases hf : s.fatal with
      | false => exact .inl htf
      | true => rw [exec_deriveCommit_of_fatal hf] at h; cases h; exact .inl hf
  | absorb _ hu ht => rw [ht, setErr_fatal, treeUpdate_fatal hu]; exact .inl rfl
  | overflow ht => rw [ht]; exact .inr (.inr ⟨rfl, rfl, _, rfl⟩)
  | finalize _ hf _ _ => exact .inl hf
  | squeeze _ hf _ _ => exact .inl hf

/-- What each step makes of FATAL. -/
theorem step_fatal {s t : State} (h : step s = .next t) :
    t.fatal = s.fatal ∨
    (t.fatal = false ∧ (StepResets s ∨ ∃ i, StepRuns s i ∧ ClearsFatal i)) ∨
    (t.fatal = true ∧ t.err = .stackOverflow ∧ ∃ len, StepRuns s (.update len)) := by
  obtain ⟨-, rfl⟩ | ⟨e, rest, hq, hfetch, heff⟩ := step_cases h
  · exact .inl rfl
  · cases heff with
    | command i hp hi =>
      have hr : StepRuns s i := ⟨_, hfetch.trans hp⟩
      obtain hkeep | ⟨hclear, hc⟩ | ⟨hset, herr, len, rfl⟩ := exec_fatal hi
      · exact .inl hkeep
      · exact .inr (.inl ⟨hclear, .inr ⟨i, hr, hc⟩⟩)
      · exact .inr (.inr ⟨hset, herr, len, hr⟩)
    | illegal _ _ _ _ _ _ ht => rw [ht]; exact .inl rfl
    | store _ _ r v _ _ _ ht => rw [ht]; exact .inl (writeReg_fatal r v _)
    | load _ _ _ _ _ ht => rw [ht]; exact .inl rfl
    | reset he ht => rw [ht]; exact .inr (.inl ⟨rfl, .inl ⟨rest, he ▸ hq⟩⟩)

/-- Settles O50: a change of FATAL is one of the two that `step_fatal` names. -/
theorem onlyTheseStepsChangeFatal : Obligations.OnlyTheseStepsChangeFatal := by
  refine ⟨fun s t hstep hs ht => ?_, fun s t hstep hs ht => ?_⟩
  · obtain hkeep | ⟨hclear, -⟩ | ⟨-, hset⟩ := step_fatal hstep
    · simp [hkeep, hs] at ht
    · simp [hclear] at ht
    · exact hset
  · obtain hkeep | ⟨-, hr | ⟨i, hr, rfl | rfl | rfl⟩⟩ | ⟨hset, -⟩ := step_fatal hstep
    · simp [hkeep, hs] at ht
    · exact .inl hr
    · exact .inr (.inl hr)
    · exact .inr (.inr (.inl hr))
    · exact .inr (.inr (.inr hr))
    · simp [hset] at ht

end Sys2Proof.Machine
end

section
/-! The platform's reset (70_reset_and_hazards.md R900), what INIT shares with it (R901), and who writes the result
registers (R905). -/

namespace Sys2Proof.Machine

/-- The step of a reset (R900). -/
theorem step_reset {s : State} {rest : List HostEvent} (hq : s.hostQueue = .reset :: rest) :
    step s = .next (platformReset { s with hostQueue := rest }) :=
  step_of_access hq rfl

/-- Settles O19: `platformReset` is `State.reset` but for the model's own fields. -/
theorem platformResetRestoresResetState : Obligations.PlatformResetRestoresResetState :=
  fun _ _ hq => ⟨_, step_reset hq, rfl⟩

/-- The chunk registers after reset are a new chunk of the plain mode (10 R130, 41 R501). -/
theorem reset_chunk : State.reset.chunk = chunkInit iv 0 := rfl

/-- STATUS shows MODE_FLAGS, FATAL, OUT_VALID and ERR alone (10 R123). -/
theorem readReg_status_congr {s t : State} (hm : t.modeFlags = s.modeFlags) (hf : t.fatal = s.fatal)
    (hv : t.outValid = s.outValid) (he : t.err = s.err) : readReg .status t = readReg .status s := by
  simp only [readReg, statusWord, hm, hf, hv, he]

/-- Settles O20: INIT constructs the hasher that stands after reset, and what STATUS shows is as after reset. -/
theorem initEqualsResetOfHasher : Obligations.InitEqualsResetOfHasher :=
  fun s => ⟨setErr .ok (hasherInit iv 0x00 s), rfl, rfl, rfl, reset_chunk.symm, rfl, rfl,
    readReg_status_congr rfl rfl rfl rfl, rfl⟩

/-- What each command makes of OUT_DATA and CMP_OUT (R905). -/
theorem exec_results {i : Instr} {s t : State} (h : exec i s = .next t) :
    (t.outData = s.outData ∧ t.cmpOut = s.cmpOut) ∨
    ((i = .finalize ∨ i = .squeeze) ∧ t.cmpOut = s.cmpOut) ∨
    (i = .compress ∧ t.outData = s.outData) := by
  cases i with
  | init => rw [execInit_cases h]; exact .inl ⟨rfl, rfl⟩
  | initKeyed len => obtain ⟨-, rfl⟩ | ⟨-, rfl⟩ := execInitKeyed_cases h <;> exact .inl ⟨rfl, rfl⟩
  | initDerive => rw [execInitDerive_cases h]; exact .inl ⟨rfl, rfl⟩
  | deriveCommit =>
    obtain ⟨-, rfl⟩ | ⟨-, -, rfl⟩ | ⟨-, -, rfl⟩ := execDeriveCommit_cases h <;> exact .inl ⟨rfl, rfl⟩
  | update len =>
    obtain ⟨-, rfl⟩ | ⟨-, -, rfl⟩ | ⟨-, -, u, hu, rfl⟩ | ⟨-, -, -, rfl⟩ := execUpdate_cases h
    · exact .inl ⟨rfl, rfl⟩
    · exact .inl ⟨rfl, rfl⟩
    · rw [treeUpdate_frame hu]; exact .inl ⟨rfl, rfl⟩
    · exact .inl ⟨rfl, rfl⟩
  | finalize =>
    rw [exec_finalize_squeeze_frame (.inl rfl) h]
    exact .inr (.inl ⟨.inl rfl, rfl⟩)
  | squeeze =>
    rw [exec_finalize_squeeze_frame (.inr rfl) h]
    exact .inr (.inl ⟨.inr rfl, rfl⟩)
  | compress => rw [execCompress_cases h]; exact .inr (.inr ⟨rfl, rfl⟩)

/-- What each step makes of OUT_DATA and CMP_OUT (R905). -/
theorem step_results {s t : State} (h : step s = .next t) :
    (t.outData = s.outData ∧ t.cmpOut = s.cmpOut) ∨ StepResets s ∨
    ((StepRuns s .finalize ∨ StepRuns s .squeeze) ∧ t.cmpOut = s.cmpOut) ∨
    (StepRuns s .compress ∧ t.outData = s.outData) := by
  obtain ⟨-, rfl⟩ | ⟨e, rest, hq, hfetch, heff⟩ := step_cases h
  · exact .inl ⟨rfl, rfl⟩
  · cases heff with
    | command i hp hi =>
      have hr : StepRuns s i := ⟨_, hfetch.trans hp⟩
      obtain hkeep | ⟨rfl | rfl, hc⟩ | ⟨rfl, ho⟩ := exec_results hi
      · exact .inl hkeep
      · exact .inr (.inr (.inl ⟨.inl hr, hc⟩))
      · exact .inr (.inr (.inl ⟨.inr hr, hc⟩))
      · exact .inr (.inr (.inr ⟨hr, ho⟩))
    | illegal _ _ _ _ _ _ ht => rw [ht]; exact .inl ⟨rfl, rfl⟩
    | store _ _ r v _ _ _ ht => rw [ht]; exact .inl ⟨writeReg_outData r v _, writeReg_cmpOut r v _⟩
    | load _ _ _ _ _ ht => rw [ht]; exact .inl ⟨rfl, rfl⟩
    | reset he _ => exact .inr (.inl ⟨rest, he ▸ hq⟩)

/-- Settles O52: for each of the two registers, the steps of `step_results` that may change it. -/
theorem onlyTheseStepsChangeResults : Obligations.OnlyTheseStepsChangeResults := by
  refine ⟨fun s t hstep hne => ?_, fun s t hstep hne => ?_⟩
  · obtain ⟨ho, -⟩ | hr | ⟨hr, -⟩ | ⟨-, ho⟩ := step_results hstep
    · exact absurd ho hne
    · exact .inl hr
    · exact .inr hr
    · exact absurd ho hne
  · obtain ⟨-, hc⟩ | hr | ⟨-, hc⟩ | ⟨hr, -⟩ := step_results hstep
    · exact absurd hc hne
    · exact .inl hr
    · exact absurd hc hne
    · exact .inr hr

end Sys2Proof.Machine
end
